-- ==== Sys2Proof/Word.lean ====
section
/-! DEFINITION. The widths of the hardware's values (spec/00_scope.md R7, R10): every value is an unsigned
integer of a stated width; there is no signed quantity. -/

namespace Sys2Proof

/-- A `u8`: a general register, a timer, a RAM byte, the immediate `kk`. -/
abbrev Byte := BitVec 8

/-- A `u16`: `pc`, `I`, a stack entry, an instruction word. -/
abbrev Word := BitVec 16

/-- A 4-bit field: a register index `x` or `y`, or the count `n` (spec/30_encoding.md R92). Every value is a
legal register index (spec/10_state.md R22). -/
abbrev Nibble := BitVec 4

/-- A 12-bit address field `nnn` (R92), and the loader port's `ld_addr` (spec/10_state.md R51). -/
abbrev Addr12 := BitVec 12

end Sys2Proof
end

