-- ==== Sys2Proof/Syntax.lean ====
section
/-! DEFINITION. The closed instruction set (spec/30_encoding.md R91, R100): 34 instructions, one constructor per row of
spec/opcode_table.json, in the table's order, with the operand fields of the row's format (R92, R93). -/

namespace Sys2Proof

/-- The decoded form of an instruction word. Register fields are 4-bit indices, `kk` a byte, `nnn` a 12-bit address,
`n` a 4-bit count. The two shifts carry the `y` field of their encoding, which their meaning ignores (R93, R177). -/
inductive Instr where
  /-- `00E0` CLS -/
  | clear
  /-- `00EE` RET -/
  | ret
  /-- `1nnn` JP nnn -/
  | jump (nnn : Addr12)
  /-- `2nnn` CALL nnn -/
  | call (nnn : Addr12)
  /-- `3xkk` SE Vx, kk -/
  | skipEqImm (x : Nibble) (kk : Byte)
  /-- `4xkk` SNE Vx, kk -/
  | skipNeqImm (x : Nibble) (kk : Byte)
  /-- `5xy0` SE Vx, Vy -/
  | skipEqReg (x y : Nibble)
  /-- `6xkk` LD Vx, kk -/
  | loadImm (x : Nibble) (kk : Byte)
  /-- `7xkk` ADD Vx, kk -/
  | addImm (x : Nibble) (kk : Byte)
  /-- `8xy0` LD Vx, Vy -/
  | loadReg (x y : Nibble)
  /-- `8xy1` OR Vx, Vy -/
  | orReg (x y : Nibble)
  /-- `8xy2` AND Vx, Vy -/
  | andReg (x y : Nibble)
  /-- `8xy3` XOR Vx, Vy -/
  | xorReg (x y : Nibble)
  /-- `8xy4` ADD Vx, Vy -/
  | addReg (x y : Nibble)
  /-- `8xy5` SUB Vx, Vy -/
  | subReg (x y : Nibble)
  /-- `8xy6` SHR Vx; `y` is ignored -/
  | shiftRight (x y : Nibble)
  /-- `8xy7` SUBN Vx, Vy -/
  | subNegated (x y : Nibble)
  /-- `8xyE` SHL Vx; `y` is ignored -/
  | shiftLeft (x y : Nibble)
  /-- `9xy0` SNE Vx, Vy -/
  | skipNeqReg (x y : Nibble)
  /-- `Annn` LD I, nnn -/
  | loadAddress (nnn : Addr12)
  /-- `Bnnn` JP V0, nnn -/
  | jumpIndexed (nnn : Addr12)
  /-- `Cxkk` RND Vx, kk -/
  | random (x : Nibble) (kk : Byte)
  /-- `Dxyn` DRW Vx, Vy, n -/
  | draw (x y n : Nibble)
  /-- `Ex9E` SKP Vx -/
  | skipIfPressed (x : Nibble)
  /-- `ExA1` SKNP Vx -/
  | skipIfNotPressed (x : Nibble)
  /-- `Fx07` LD Vx, DT -/
  | loadDelay (x : Nibble)
  /-- `Fx0A` LD Vx, K -/
  | loadKey (x : Nibble)
  /-- `Fx15` LD DT, Vx -/
  | setDelay (x : Nibble)
  /-- `Fx18` LD ST, Vx -/
  | setSound (x : Nibble)
  /-- `Fx1E` ADD I, Vx -/
  | addToIndex (x : Nibble)
  /-- `Fx29` LD F, Vx -/
  | loadFontAddress (x : Nibble)
  /-- `Fx33` LD B, Vx -/
  | storeBcd (x : Nibble)
  /-- `Fx55` LD [I], Vx -/
  | storeRegisters (x : Nibble)
  /-- `Fx65` LD Vx, [I] -/
  | loadRegisters (x : Nibble)
  deriving DecidableEq, Repr

end Sys2Proof
end

