-- ==== Sys2Proof/WellFormed.lean ====
section
/-! DEFINITION. Which terms are well formed. Every operand of `Instr` has exactly the width of its field (R92), so no
ill-formed `Instr` can be written and every constructor's every operand is legal (R22, R94, R103 last sentence). What can
be ill formed is an instruction WORD: the check below is the opcode map of spec/30_encoding.md R100, row by row, with
the strict matching of fixed bits of R102. The decoder of Sys2Proof/Decode.lean does not use it: it dispatches in layers
(R95), and that the two agree is a statement. -/

namespace Sys2Proof

/-- One row of the opcode map of R100: a word `w` is the row's instruction exactly when `w & mask = match`. -/
structure OpcodeRow where
  mask : Word
  matchBits : Word
  deriving DecidableEq, Repr

/-- The row of an instruction's constructor, columns `mask` and `match` of R100. -/
def Instr.row : Instr → OpcodeRow
  | .clear => ⟨0xFFFF, 0x00E0⟩
  | .ret => ⟨0xFFFF, 0x00EE⟩
  | .jump _ => ⟨0xF000, 0x1000⟩
  | .call _ => ⟨0xF000, 0x2000⟩
  | .skipEqImm _ _ => ⟨0xF000, 0x3000⟩
  | .skipNeqImm _ _ => ⟨0xF000, 0x4000⟩
  | .skipEqReg _ _ => ⟨0xF00F, 0x5000⟩
  | .loadImm _ _ => ⟨0xF000, 0x6000⟩
  | .addImm _ _ => ⟨0xF000, 0x7000⟩
  | .loadReg _ _ => ⟨0xF00F, 0x8000⟩
  | .orReg _ _ => ⟨0xF00F, 0x8001⟩
  | .andReg _ _ => ⟨0xF00F, 0x8002⟩
  | .xorReg _ _ => ⟨0xF00F, 0x8003⟩
  | .addReg _ _ => ⟨0xF00F, 0x8004⟩
  | .subReg _ _ => ⟨0xF00F, 0x8005⟩
  | .shiftRight _ _ => ⟨0xF00F, 0x8006⟩
  | .subNegated _ _ => ⟨0xF00F, 0x8007⟩
  | .shiftLeft _ _ => ⟨0xF00F, 0x800E⟩
  | .skipNeqReg _ _ => ⟨0xF00F, 0x9000⟩
  | .loadAddress _ => ⟨0xF000, 0xA000⟩
  | .jumpIndexed _ => ⟨0xF000, 0xB000⟩
  | .random _ _ => ⟨0xF000, 0xC000⟩
  | .draw _ _ _ => ⟨0xF000, 0xD000⟩
  | .skipIfPressed _ => ⟨0xF0FF, 0xE09E⟩
  | .skipIfNotPressed _ => ⟨0xF0FF, 0xE0A1⟩
  | .loadDelay _ => ⟨0xF0FF, 0xF007⟩
  | .loadKey _ => ⟨0xF0FF, 0xF00A⟩
  | .setDelay _ => ⟨0xF0FF, 0xF015⟩
  | .setSound _ => ⟨0xF0FF, 0xF018⟩
  | .addToIndex _ => ⟨0xF0FF, 0xF01E⟩
  | .loadFontAddress _ => ⟨0xF0FF, 0xF029⟩
  | .storeBcd _ => ⟨0xF0FF, 0xF033⟩
  | .storeRegisters _ => ⟨0xF0FF, 0xF055⟩
  | .loadRegisters _ => ⟨0xF0FF, 0xF065⟩

/-- The complete opcode map of R100: the rows in the table's order. -/
def opcodeMap : List OpcodeRow :=
  [⟨0xFFFF, 0x00E0⟩, ⟨0xFFFF, 0x00EE⟩, ⟨0xF000, 0x1000⟩, ⟨0xF000, 0x2000⟩, ⟨0xF000, 0x3000⟩, ⟨0xF000, 0x4000⟩,
   ⟨0xF00F, 0x5000⟩, ⟨0xF000, 0x6000⟩, ⟨0xF000, 0x7000⟩] ++
  [⟨0xF00F, 0x8000⟩, ⟨0xF00F, 0x8001⟩, ⟨0xF00F, 0x8002⟩, ⟨0xF00F, 0x8003⟩, ⟨0xF00F, 0x8004⟩, ⟨0xF00F, 0x8005⟩,
   ⟨0xF00F, 0x8006⟩, ⟨0xF00F, 0x8007⟩, ⟨0xF00F, 0x800E⟩, ⟨0xF00F, 0x9000⟩] ++
  [⟨0xF000, 0xA000⟩, ⟨0xF000, 0xB000⟩, ⟨0xF000, 0xC000⟩, ⟨0xF000, 0xD000⟩, ⟨0xF0FF, 0xE09E⟩, ⟨0xF0FF, 0xE0A1⟩] ++
  [⟨0xF0FF, 0xF007⟩, ⟨0xF0FF, 0xF00A⟩, ⟨0xF0FF, 0xF015⟩, ⟨0xF0FF, 0xF018⟩, ⟨0xF0FF, 0xF01E⟩, ⟨0xF0FF, 0xF029⟩,
   ⟨0xF0FF, 0xF033⟩, ⟨0xF0FF, 0xF055⟩, ⟨0xF0FF, 0xF065⟩]

/-- Whether a word is the instruction of a row (R100). -/
def OpcodeRow.accepts (r : OpcodeRow) (w : Word) : Bool := w &&& r.mask == r.matchBits

/-- The well-formedness check of an instruction word: it matches some row of the map; a word that matches none is
illegal (R103). -/
def wellFormedWord (w : Word) : Bool := opcodeMap.any (·.accepts w)

end Sys2Proof
end

