-- ==== Sys2Proof/Decode.lean ====
section
/-! DEFINITION. The opcode decoder (spec/30_encoding.md R90 to R105) and, after it, the encoder. -/

namespace Sys2Proof

/-- The verdict of the decoder on a word (R95): exactly one instruction with its fields, or DecodeFailure. -/
inductive Decoded where
  | instr (i : Instr)
  | decodeFailure
  deriving DecidableEq, Repr

/-- Field `op`, bits 15 to 12: the primary group (R92). -/
def fieldOp (w : Word) : Nibble := w.extractLsb' 12 4

/-- Field `x`, bits 11 to 8 (R92). -/
def fieldX (w : Word) : Nibble := w.extractLsb' 8 4

/-- Field `y`, bits 7 to 4 (R92). -/
def fieldY (w : Word) : Nibble := w.extractLsb' 4 4

/-- Field `n`, bits 3 to 0 (R92). -/
def fieldN (w : Word) : Nibble := w.extractLsb' 0 4

/-- Field `kk`, bits 7 to 0 (R92). -/
def fieldKk (w : Word) : Byte := w.extractLsb' 0 8

/-- Field `nnn`, bits 11 to 0 (R92). -/
def fieldNnn (w : Word) : Addr12 := w.extractLsb' 0 12

/-- Group 0x0: the whole word must match (R96, R102). -/
def decodeGroup0 (w : Word) : Decoded :=
  if w = 0x00E0 then .instr .clear
  else if w = 0x00EE then .instr .ret
  else .decodeFailure

/-- Groups 0x5 and 0x9: the low nibble must be 0 (R95, R102). -/
def decodeStrict (w : Word) (i : Instr) : Decoded :=
  if fieldN w = 0 then .instr i else .decodeFailure

/-- Group 0x8 sub-dispatches on the low nibble (R97). -/
def decodeGroup8 (w : Word) : Decoded :=
  match (fieldN w).toNat with
  | 0x0 => .instr (.loadReg (fieldX w) (fieldY w))
  | 0x1 => .instr (.orReg (fieldX w) (fieldY w))
  | 0x2 => .instr (.andReg (fieldX w) (fieldY w))
  | 0x3 => .instr (.xorReg (fieldX w) (fieldY w))
  | 0x4 => .instr (.addReg (fieldX w) (fieldY w))
  | 0x5 => .instr (.subReg (fieldX w) (fieldY w))
  | 0x6 => .instr (.shiftRight (fieldX w) (fieldY w))
  | 0x7 => .instr (.subNegated (fieldX w) (fieldY w))
  | 0xE => .instr (.shiftLeft (fieldX w) (fieldY w))
  | _ => .decodeFailure

/-- Group 0xE sub-dispatches on the low byte (R98). -/
def decodeGroupE (w : Word) : Decoded :=
  if fieldKk w = 0x9E then .instr (.skipIfPressed (fieldX w))
  else if fieldKk w = 0xA1 then .instr (.skipIfNotPressed (fieldX w))
  else .decodeFailure

/-- Group 0xF sub-dispatches on the low byte (R99). -/
def decodeGroupF (w : Word) : Decoded :=
  if fieldKk w = 0x07 then .instr (.loadDelay (fieldX w))
  else if fieldKk w = 0x0A then .instr (.loadKey (fieldX w))
  else if fieldKk w = 0x15 then .instr (.setDelay (fieldX w))
  else if fieldKk w = 0x18 then .instr (.setSound (fieldX w))
  else if fieldKk w = 0x1E then .instr (.addToIndex (fieldX w))
  else if fieldKk w = 0x29 then .instr (.loadFontAddress (fieldX w))
  else if fieldKk w = 0x33 then .instr (.storeBcd (fieldX w))
  else if fieldKk w = 0x55 then .instr (.storeRegisters (fieldX w))
  else if fieldKk w = 0x65 then .instr (.loadRegisters (fieldX w))
  else .decodeFailure

/-- The decoder of R95: a pure function of the word, total, dispatching on the top nibble first. The last arm is
unreachable: the nibble is below 16. -/
def decode (w : Word) : Decoded :=
  match (fieldOp w).toNat with
  | 0x0 => decodeGroup0 w
  | 0x1 => .instr (.jump (fieldNnn w))
  | 0x2 => .instr (.call (fieldNnn w))
  | 0x3 => .instr (.skipEqImm (fieldX w) (fieldKk w))
  | 0x4 => .instr (.skipNeqImm (fieldX w) (fieldKk w))
  | 0x5 => decodeStrict w (.skipEqReg (fieldX w) (fieldY w))
  | 0x6 => .instr (.loadImm (fieldX w) (fieldKk w))
  | 0x7 => .instr (.addImm (fieldX w) (fieldKk w))
  | 0x8 => decodeGroup8 w
  | 0x9 => decodeStrict w (.skipNeqReg (fieldX w) (fieldY w))
  | 0xA => .instr (.loadAddress (fieldNnn w))
  | 0xB => .instr (.jumpIndexed (fieldNnn w))
  | 0xC => .instr (.random (fieldX w) (fieldKk w))
  | 0xD => .instr (.draw (fieldX w) (fieldY w) (fieldN w))
  | 0xE => decodeGroupE w
  | 0xF => decodeGroupF w
  | _ => .decodeFailure

/-- The word of two bytes, the byte at the lower address first: it is the high byte (spec/20_memory.md R63, R66). -/
def wordOfBytes (hi lo : Byte) : Word := hi ++ lo

/-- The high byte of a word: the one at the even address (R66). -/
def wordHi (w : Word) : Byte := w.extractLsb' 8 8

/-- The low byte of a word: the one at the odd address (R66). -/
def wordLo (w : Word) : Byte := w.extractLsb' 0 8

/-- What the decoder reads from a run of bytes in address order. -/
inductive BytesDecoded where
  /-- The instruction of the first two bytes, and the bytes after it: every instruction is two bytes (R90, R105). -/
  | instr (i : Instr) (rest : List Byte)
  /-- The first two bytes spell an illegal word (R103). -/
  | decodeFailure (w : Word)
  /-- Fewer than two bytes are left. -/
  | tooShort
  deriving DecidableEq, Repr

/-- The decoder on a run of bytes: total, and it rejects by name. -/
def decodeBytes : List Byte → BytesDecoded
  | hi :: lo :: rest =>
    match decode (wordOfBytes hi lo) with
    | .instr i => .instr i rest
    | .decodeFailure => .decodeFailure (wordOfBytes hi lo)
  | _ => .tooShort

/-- The encoder: the word of an instruction, its four nibbles from bit 15 down as the patterns of R100 spell them. -/
def encode : Instr → Word
  | .clear => 0x00E0
  | .ret => 0x00EE
  | .jump nnn => 0x1#4 ++ nnn
  | .call nnn => 0x2#4 ++ nnn
  | .skipEqImm x kk => 0x3#4 ++ x ++ kk
  | .skipNeqImm x kk => 0x4#4 ++ x ++ kk
  | .skipEqReg x y => 0x5#4 ++ x ++ y ++ 0x0#4
  | .loadImm x kk => 0x6#4 ++ x ++ kk
  | .addImm x kk => 0x7#4 ++ x ++ kk
  | .loadReg x y => 0x8#4 ++ x ++ y ++ 0x0#4
  | .orReg x y => 0x8#4 ++ x ++ y ++ 0x1#4
  | .andReg x y => 0x8#4 ++ x ++ y ++ 0x2#4
  | .xorReg x y => 0x8#4 ++ x ++ y ++ 0x3#4
  | .addReg x y => 0x8#4 ++ x ++ y ++ 0x4#4
  | .subReg x y => 0x8#4 ++ x ++ y ++ 0x5#4
  | .shiftRight x y => 0x8#4 ++ x ++ y ++ 0x6#4
  | .subNegated x y => 0x8#4 ++ x ++ y ++ 0x7#4
  | .shiftLeft x y => 0x8#4 ++ x ++ y ++ 0xE#4
  | .skipNeqReg x y => 0x9#4 ++ x ++ y ++ 0x0#4
  | .loadAddress nnn => 0xA#4 ++ nnn
  | .jumpIndexed nnn => 0xB#4 ++ nnn
  | .random x kk => 0xC#4 ++ x ++ kk
  | .draw x y n => 0xD#4 ++ x ++ y ++ n
  | .skipIfPressed x => 0xE#4 ++ x ++ 0x9E#8
  | .skipIfNotPressed x => 0xE#4 ++ x ++ 0xA1#8
  | .loadDelay x => 0xF#4 ++ x ++ 0x07#8
  | .loadKey x => 0xF#4 ++ x ++ 0x0A#8
  | .setDelay x => 0xF#4 ++ x ++ 0x15#8
  | .setSound x => 0xF#4 ++ x ++ 0x18#8
  | .addToIndex x => 0xF#4 ++ x ++ 0x1E#8
  | .loadFontAddress x => 0xF#4 ++ x ++ 0x29#8
  | .storeBcd x => 0xF#4 ++ x ++ 0x33#8
  | .storeRegisters x => 0xF#4 ++ x ++ 0x55#8
  | .loadRegisters x => 0xF#4 ++ x ++ 0x65#8

/-- The two bytes of an instruction in address order, high byte first (R66, R90). -/
def encodeBytes (i : Instr) : List Byte := [wordHi (encode i), wordLo (encode i)]

/-- The one word of a table row: bit 0 is the least significant bit of the word, and the bits from `nbits` up are 0. -/
def tableWord (nbits w : Nat) : Word := BitVec.ofNat 16 (w % 2 ^ nbits)

/-- The instruction the decoder reads from a word of spec/opcode_table.json laid out in memory, high byte first. -/
def decodeTableWord (nbits w : Nat) : Option Instr :=
  match decodeBytes [wordHi (tableWord nbits w), wordLo (tableWord nbits w)] with
  | .instr i _ => some i
  | _ => none

end Sys2Proof
end

