-- ==== Sys2Proof/Config.lean ====
section
/-! DEFINITION. What is fixed for the machine (spec/00_scope.md R7), what the environment leaves free (R8), and the
conventional font of spec/20_memory.md R72. -/

namespace Sys2Proof

/-- `MEM_SIZE` of R7. -/
@[simp] def Config.memSize : Nat := 4096

/-- `PC_RESET` and `PROG_BASE` of R7: the reset vector, and where the loader puts the program image. -/
@[simp] def Config.progBase : Nat := 0x200

/-- `FONT_BASE` of R7. -/
@[simp] def Config.fontBase : Nat := 0

/-- `FONT_SIZE` of R7: 16 glyphs of 5 bytes. -/
@[simp] def Config.fontSize : Nat := 80

/-- `GLYPH_SIZE` of R7. -/
@[simp] def Config.glyphSize : Nat := 5

/-- `STACK_DEPTH` of R7. -/
@[simp] def Config.stackDepth : Nat := 16

/-- `FLAG_REG` of R7: the index of `VF`. -/
@[simp] def Config.flagReg : Nibble := 15

/-- `MAX_IMAGE` of R7: the largest program image, `MEM_SIZE - PROG_BASE`. -/
@[simp] def Config.maxImage : Nat := 3584

/-- FREE VALUE. The key snapshot presented at step boundary number `n` when the state's list of inputs is exhausted:
any of the 65536 subsets (spec/10_state.md R46; 93_implementation_defined.md U9). notes/assumptions/2.md. -/
opaque Config.freeKeys : Nat → BitVec 16

/-- FREE VALUE. The random byte presented at step boundary number `n` when the state's list of inputs is exhausted:
any byte (R47; U8). notes/assumptions/2.md. -/
opaque Config.freeRnd : Nat → Byte

/-- FREE VALUE. How many timer ticks fall just before step boundary number `n` when the state's list of inputs is
exhausted: any number, zero included (spec/40_step_cycle.md R131; U10). notes/assumptions/2.md. -/
opaque Config.freeTicks : Nat → Nat

/-- The conventional bytes of the launch parameter `FONT` (R72, marked there as general knowledge): no meaning of an
instruction reads this; it is one argument `State.launch` may be given. -/
def Config.conventionalFont : List Byte :=
  [0xF0, 0x90, 0x90, 0x90, 0xF0,   0x20, 0x60, 0x20, 0x20, 0x70,
   0xF0, 0x10, 0xF0, 0x80, 0xF0,   0xF0, 0x10, 0xF0, 0x10, 0xF0] ++
  [0x90, 0x90, 0xF0, 0x10, 0x10,   0xF0, 0x80, 0xF0, 0x10, 0xF0,
   0xF0, 0x80, 0xF0, 0x90, 0xF0,   0xF0, 0x10, 0x20, 0x40, 0x40] ++
  [0xF0, 0x90, 0xF0, 0x90, 0xF0,   0xF0, 0x90, 0xF0, 0x10, 0xF0,
   0xF0, 0x90, 0xF0, 0x90, 0x90,   0xE0, 0x90, 0xE0, 0x90, 0xE0] ++
  [0xF0, 0x80, 0x80, 0x80, 0xF0,   0xE0, 0x90, 0x90, 0x90, 0xE0,
   0xF0, 0x80, 0xF0, 0x80, 0xF0,   0xF0, 0x80, 0xF0, 0x80, 0x80]

end Sys2Proof
end

