-- ==== Sys2Proof/Machine/State.lean ====
section
/-! DEFINITION. The machine's state as plain data (spec/10_state.md; INVENTORY.md lists every field), why a step can stop,
and the state after reset. -/

namespace Sys2Proof.Machine

/-- The RAM `Mem` (R37, spec/20_memory.md R60): cells sorted by address, none holding 0. An unlisted address reads as 0
(DESIGN CHOICE, notes/assumptions/3.md), so every content of the 4096 bytes, hence every `MEM_INIT` of R73, is exactly
one list of this form. -/
abbrev Memory := List Host.Cell

/-- The canonical form of a memory: addresses strictly rising, all inside the RAM, no entry equal to what an unlisted
address reads as. -/
abbrev Memory.wf (m : Memory) : Prop :=
  m.Pairwise (fun a b => a.1 < b.1) ∧ ∀ c ∈ m, c.1 < 4096 ∧ c.2 ≠ 0

/-- The framebuffer `FB` (R35): 32 rows of 64 one-bit cells, row 0 the top one. Cell `FB[row*64 + col]` is bit `col` of
row `row`. -/
abbrev Framebuffer := Vector (BitVec 64) 32

/-- The six fatal failure causes of spec/60_exceptions.md R251. -/
inductive Cause where
  /-- Code 1: the fetched word matches no row of the opcode map; `info` is the word (R253). -/
  | decodeFailure
  /-- Code 2: Call with 16 frames active; `info` is 16 (R254). -/
  | stackOverflow
  /-- Code 3: Return with no frame active; `info` is 0 (R255). -/
  | stackUnderflow
  /-- Code 4: an access through `I` reaches beyond address 4095; `info` is `max(I, 4096)` (R256). -/
  | boundsFailure
  /-- Code 5: `pc` even and above 4094 at fetch; `info` is `pc` (R257). -/
  | fetchBounds
  /-- Code 6: `pc` odd at fetch; `info` is `pc` (R258). -/
  | pcMisaligned
  deriving DecidableEq, Repr

/-- The run status (R39). -/
inductive Status where
  /-- The core takes instruction steps. -/
  | running
  /-- A Load-key found no key pressed: the core takes key-poll steps until one is; `x` is the register to write. -/
  | awaitKey (x : Nibble)
  /-- A fatal failure has happened: its cause, the `pc` at which the failing step began, and the recorded value. -/
  | faulted (cause : Cause) (faultPc info : Word)
  deriving DecidableEq, Repr

/-- The input signals of R45 as sampled at one step boundary: what the environment presents between the end of one core
step and the end of the next (notes/assumptions/1.md). -/
structure Input where
  /-- `rst`: reset is asserted (R49). -/
  rst : Bool
  /-- `run`: the host permits a core step (R50). -/
  run : Bool
  /-- How many `tick60` pulses have arrived since the boundary before; they are applied before the core step
  (R48, spec/40_step_cycle.md R131, R132). -/
  ticks : Nat
  /-- The key snapshot: bit `k` is 1 when key `k` is pressed (R46). -/
  keys : BitVec 16
  /-- The random byte (R47). -/
  rnd : Byte
  /-- The loader port: `some (ld_addr, ld_data)` when `ld_we = 1` (R51). -/
  load : Option (Addr12 × Byte)
  deriving DecidableEq, Repr

/-- The state. The first ten fields are the architectural state of R15; `keys` and `rnd` are the latches of phase 1 of a
step (spec/40_step_cycle.md R121); `inputs` and `boundary` are the MODEL'S OWN fields, which say what the environment
presents next (notes/assumptions/1.md and 2.md). -/
structure State where
  /-- The general registers `V0` to `VF` (R20). -/
  v : Vector Byte 16
  /-- The address register `I` (R29). -/
  i : Word
  /-- The program counter (R25). -/
  pc : Word
  /-- The number of active frames, 0 to 16 (R30). -/
  sp : Fin 17
  /-- The call-stack buffer `STK` (R31). -/
  stk : Vector Word 16
  /-- The delay timer `DT` (R33). -/
  dt : Byte
  /-- The sound timer `ST` (R33). -/
  st : Byte
  /-- The RAM (R37). -/
  mem : Memory
  /-- The framebuffer (R35). -/
  fb : Framebuffer
  /-- The run status (R39). -/
  status : Status
  /-- The key snapshot latched for the step in progress (R40 (c), R46, R121). -/
  keys : BitVec 16
  /-- The random byte latched for the step in progress (R47, R121). -/
  rnd : Byte
  /-- What the environment presents at the coming step boundaries, the next one first; when it is exhausted the
  presented values are free. -/
  inputs : List Input
  /-- The number of step boundaries so far: the argument of the free values. -/
  boundary : Nat
  deriving DecidableEq, Repr

/-- Why a step has no next state. -/
inductive Fault where
  /-- STUCK. `step` answers it, and nothing else does, when the core is `Faulted` and the list of inputs, which may still
  bring a reset, is exhausted: the core has no step of any kind until reset (spec/60_exceptions.md R262,
  93_implementation_defined.md U18). Safe: the hardware does nothing either. The record is the one in `status`. -/
  | halted (cause : Cause) (faultPc info : Word)
  deriving DecidableEq, Repr

/-- Why an instruction has no meaning. -/
inductive Refusal where
  /-- An instruction whose arm in `exec` has no meaning yet; no arm answers it now. Safe: the model stops. -/
  | notModelled (mnemonic : String)
  deriving DecidableEq, Repr

/-- The machine right after reset (R55, spec/70_reset_and_hazards.md R290). The source gives `pc = 0x200`; `V`, `I`, `SP`,
`DT`, `ST`, `FB` and `status` are the spec's decision D15; the stack entries, which the spec leaves unspecified and calls
unobservable, the RAM, the latches and the inputs are the model's choice (notes/assumptions/3.md, 4.md, 2.md). -/
def State.reset : State :=
  { v := Vector.replicate 16 0
    i := 0
    pc := 0x200
    sp := 0
    stk := Vector.replicate 16 0
    dt := 0
    st := 0
    mem := []
    fb := Vector.replicate 32 0
    status := .running
    keys := 0
    rnd := 0
    inputs := []
    boundary := 0 }

end Sys2Proof.Machine
end

