-- ==== Sys2Proof/Machine/Ops.lean ====
section
/-! DEFINITION. The named operations over RAM, registers, stack, timers, framebuffer and status that every meaning is
written with; the one operation that takes a fatal failure, and the reset event, the only way back from one. -/

namespace Sys2Proof.Machine

/-! ### RAM (spec/20_memory.md) -/

/-- `Mem[a]` (R62): the listed byte, or what an unlisted address reads as. -/
def Memory.read : Memory → Nat → Byte
  | [], _ => 0
  | (k, b) :: m, a => if k = a then b else Memory.read m a

/-- `Mem[a] <- v` (R64), keeping the canonical form: the entry is placed in order, and writing what an unlisted address
reads as removes it. -/
def Memory.write : Memory → Nat → Byte → Memory
  | [], a, v => if v = 0 then [] else [(a, v)]
  | (k, b) :: m, a, v =>
    if a < k then (if v = 0 then (k, b) :: m else (a, v) :: (k, b) :: m)
    else if a = k then (if v = 0 then m else (a, v) :: m)
    else (k, b) :: Memory.write m a v

/-- Writes bytes at `a, a+1, ...` in ascending order. -/
def Memory.writeRun (m : Memory) (a : Nat) : List Byte → Memory
  | [] => m
  | b :: bs => Memory.writeRun (Memory.write m a b) (a + 1) bs

/-- Reads `n` bytes at `a, a+1, ...` in ascending order. -/
def Memory.readRun (m : Memory) (a : Nat) : Nat → List Byte
  | 0 => []
  | n + 1 => Memory.read m a :: Memory.readRun m (a + 1) n

/-! ### Registers (spec/10_state.md) -/

/-- `V[x]`: none of the sixteen is hardwired (R21). -/
def State.getV (s : State) (x : Nibble) : Byte := s.v[x.toNat]'(x.isLt)

/-- `V[x] <- b`. -/
def State.setV (s : State) (x : Nibble) (b : Byte) : State := { s with v := s.v.set x.toNat b x.isLt }

/-- Writes the whole register file (Load-registers, R196). -/
def State.setAllV (s : State) (v : Vector Byte 16) : State := { s with v := v }

/-- `I <- w`. -/
def State.setI (s : State) (w : Word) : State := { s with i := w }

/-- `pc <- w`. -/
def State.setPc (s : State) (w : Word) : State := { s with pc := w }

/-- `DT <- b`. -/
def State.setDt (s : State) (b : Byte) : State := { s with dt := b }

/-- `ST <- b`. -/
def State.setSt (s : State) (b : Byte) : State := { s with st := b }

/-- Replaces the RAM by what a store made of it. -/
def State.setMem (s : State) (m : Memory) : State := { s with mem := m }

/-- Replaces the framebuffer by what Clear or Draw made of it. -/
def State.setFb (s : State) (fb : Framebuffer) : State := { s with fb := fb }

/-- `status <- x`. -/
def State.setStatus (s : State) (x : Status) : State := { s with status := x }

/-- The common advance of phase 3 (spec/40_step_cycle.md R124). -/
def State.advance (s : State) : State := s.setPc (s.pc + 2)

/-- `pc <- pc + 2` when the condition holds: a skip (spec/41_control_flow.md R149). -/
def State.skipIf (s : State) (c : Bool) : State := s.setPc (if c then s.pc + 2 else s.pc)

/-! ### Call stack (spec/10_state.md R30, R31) -/

/-- `STK[SP] <- w; SP <- SP + 1`, for a stack that is not full. -/
def State.push (s : State) (w : Word) (h : s.sp.val ≠ 16) : State :=
  { s with
    stk := s.stk.set s.sp.val w (by have := s.sp.isLt; omega)
    sp := ⟨s.sp.val + 1, by have := s.sp.isLt; omega⟩ }

/-- `STK[SP - 1]`, the entry Return reads; a meaning asks for it only when the stack is not empty. -/
def State.top (s : State) : Word := s.stk[s.sp.val - 1]'(by have := s.sp.isLt; omega)

/-- `SP <- SP - 1`; the popped entry is not erased (R31). -/
def State.pop (s : State) : State := { s with sp := ⟨s.sp.val - 1, by have := s.sp.isLt; omega⟩ }

/-! ### Framebuffer cells (spec/10_state.md R35) -/

/-- `FB[row*64 + col]`. -/
def cell (fb : Framebuffer) (row : Fin 32) (col : Fin 64) : Bool := fb[row.val].getLsbD col.val

/-- `FB[row*64 + col] <- b`. -/
def setCell (fb : Framebuffer) (row : Fin 32) (col : Fin 64) (b : Bool) : Framebuffer :=
  fb.set row.val
    (if b then fb[row.val] ||| BitVec.twoPow 64 col.val else fb[row.val] &&& ~~~(BitVec.twoPow 64 col.val))

/-! ### Timers (spec/40_step_cycle.md R130) -/

/-- One timer after `n` ticks: it counts down and stays at 0. -/
def countDown (t : Byte) (n : Nat) : Byte := if t = 0 then 0 else BitVec.ofNat 8 (t.toNat - n)

/-- The timer-tick event (R130): both timers, nothing else. -/
def State.tick (s : State) : State :=
  (s.setDt (if s.dt = 0 then 0 else s.dt - 1)).setSt (if s.st = 0 then 0 else s.st - 1)

/-- `n` timer-tick events in a row, in closed form (R133 (c)). -/
def State.ticks (s : State) (n : Nat) : State := (s.setDt (countDown s.dt n)).setSt (countDown s.st n)

/-! ### Fatal failures and reset (spec/60_exceptions.md) -/

/-- `raise C(info)` (R252): the cause, the `pc` at which the failing step began and the recorded value go into
`status`, and nothing else changes. There is no handler: control goes nowhere (R262). -/
def State.raise (s : State) (c : Cause) (pc0 info : Word) : State := s.setStatus (.faulted c pc0 info)

/-- `raise C(info)` in phase 5, where `pc` is `pc0 + 2` (R251, R252; spec/41_control_flow.md R140). -/
def State.raiseExec (s : State) (c : Cause) (info : Word) : State := s.raise c (s.pc - 2) info

/-- The reset event (spec/70_reset_and_hazards.md R290), the only exit from `Faulted` (R264): every register, the timers,
the framebuffer and `status` take their reset values; the RAM and the stack entries are not touched
(spec/10_state.md R56), nor are the model's own fields. -/
def State.resetEvent (s : State) : State :=
  { State.reset with
    stk := s.stk
    mem := s.mem
    keys := s.keys
    rnd := s.rnd
    inputs := s.inputs
    boundary := s.boundary }

/-! ### Inputs of a step (spec/10_state.md R45 to R51) -/

/-- What the environment presents at the coming boundary: the head of the list, or, when the list is exhausted, a core
step with free keys, random byte and number of ticks. -/
def State.sampled (s : State) : Input :=
  match s.inputs with
  | [] =>
    { rst := false
      run := true
      ticks := Config.freeTicks s.boundary
      keys := Config.freeKeys s.boundary
      rnd := Config.freeRnd s.boundary
      load := none }
  | inp :: _ => inp

/-- Passes one boundary: its input is used up. -/
def State.passBoundary (s : State) : State := { s with inputs := s.inputs.tail, boundary := s.boundary + 1 }

/-- Phase 1, latch inputs (spec/40_step_cycle.md R121). -/
def State.latch (s : State) (inp : Input) : State := { s with keys := inp.keys, rnd := inp.rnd }

/-- The loader port (R51): one byte per use. -/
def State.loaderWrite (s : State) (load : Option (Addr12 × Byte)) : State :=
  match load with
  | some (a, b) => s.setMem (Memory.write s.mem a.toNat b)
  | none => s

/-! ### Launch (spec/20_memory.md R73, spec/70_reset_and_hazards.md R294, R296) -/

/-- The state at the first step of a launch: over whatever the RAM held, the font table at 0x000 and the program image at
0x200. An image longer than 3584 bytes is refused by the loader, and a font that is not 80 bytes is no font table. -/
def State.launch (ram : Memory) (font image : List Byte) : Option State :=
  if font.length = Config.fontSize ∧ image.length ≤ Config.maxImage then
    some (State.reset.setMem
      (Memory.writeRun (Memory.writeRun ram Config.fontBase font) Config.progBase image))
  else none

end Sys2Proof.Machine
end

