-- ==== Sys2Proof/Machine/Operands.lean ====
section
/-! DEFINITION. Every operand form of the instruction set: zero-extended immediates (spec/30_encoding.md R94), the one data
addressing mode, base `I` plus a small offset (spec/43_index_memory.md R190), its whole-instruction bounds rule
(spec/20_memory.md R65), the key set (spec/45_input_timers.md R230) and the decimal digits of a byte (R194). -/

namespace Sys2Proof.Machine

/-- `zext_16(nnn)`: the address field as a 16-bit value, unscaled (R94). -/
def zextAddr (nnn : Addr12) : Word := nnn.setWidth 16

/-- `zext_16(b)`: a byte as a 16-bit value. -/
def zextByte (b : Byte) : Word := b.setWidth 16

/-- The byte address of a data access at offset `r`: the unbounded integer `I + r` (spec/20_memory.md R61). -/
def State.dataAddr (s : State) (r : Nat) : Nat := s.i.toNat + r

/-- Whether an access of the `m` bytes at `I` is a BoundsFailure: at least one byte, and the last above 4095 (R65). -/
def State.outOfBounds (s : State) (m : Nat) : Bool :=
  decide (1 ≤ m ∧ s.dataAddr (m - 1) > Config.memSize - 1)

/-- The lowest out-of-range address of a failing access, `max(I, 4096)` (R65). -/
def State.boundsInfo (s : State) : Word := BitVec.ofNat 16 (max s.i.toNat Config.memSize)

/-- `raise BoundsFailure(max(I, 4096))` (R65, R197). -/
def State.raiseBounds (s : State) : State := s.raiseExec .boundsFailure s.boundsInfo

/-- Whether the key whose code is the byte `b` is in the snapshot. A value above 15 names no key (R233): the whole byte
is the bit index, and the snapshot has no such bit. -/
def keyPressed (keys : BitVec 16) (b : Byte) : Bool := keys.getLsbD b.toNat

/-- `min(keys)`, the lowest-numbered pressed key of a non-empty snapshot (R239). -/
def minKey (keys : BitVec 16) : Byte :=
  BitVec.ofNat 8 (((List.range 16).find? (fun k => keys.getLsbD k)).getD 0)

/-- The hundreds, tens and ones digits of a byte (R194). -/
def bcdDigits (b : Byte) : List Byte :=
  [BitVec.ofNat 8 (b.toNat / 100), BitVec.ofNat 8 (b.toNat % 100 / 10), BitVec.ofNat 8 (b.toNat % 10)]

/-- `V[0], ..., V[x]` in order (R195). -/
def State.regsUpTo (s : State) (x : Nibble) : List Byte := s.v.toList.take (x.toNat + 1)

/-- The register file with `V[j]` replaced by `Mem[I + j]` for `j` from 0 to `x` (R196). -/
def State.loadedRegs (s : State) (x : Nibble) : Vector Byte 16 :=
  Vector.ofFn fun j : Fin 16 =>
    if j.val ≤ x.toNat then Memory.read s.mem (s.dataAddr j.val) else s.v[j.val]

end Sys2Proof.Machine
end

