-- ==== Sys2Proof/Machine/Flags.lean ====
section
/-! DEFINITION. Every flag computation (spec/10_state.md R23, R24; spec/42_load_arith_logic.md R160 to R171). The only flag
is `VF`; the operands are read before any write, the flag is written first and the destination second (R173), so a
destination `VF` keeps the result. -/

namespace Sys2Proof.Machine

/-- The byte stored for a flag: 1 when the condition holds, else 0 (R24). -/
def flagByte (c : Bool) : Byte := if c then 1 else 0

/-- Carry out of bit 7: the exact sum exceeds 255 (R167). -/
def carryFlag (a b : Byte) : Bool := decide (a.toNat + b.toNat > 255)

/-- The sum reduced modulo 256 (R160). -/
def sumByte (a b : Byte) : Byte := BitVec.ofNat 8 (a.toNat + b.toNat)

/-- The no-borrow indicator of `a - b`: `a` strictly greater than `b` (R168, R170). -/
def noBorrowFlag (a b : Byte) : Bool := decide (a.toNat > b.toNat)

/-- The exact difference reduced modulo 256, the least non-negative residue (R160, spec/00_scope.md R10). -/
def differenceByte (a b : Byte) : Byte := BitVec.ofInt 8 ((a.toNat : Int) - (b.toNat : Int))

/-- The bit a right shift moves out: bit 0 (R169). -/
def shiftedOutRight (a : Byte) : Bool := a.getLsbD 0

/-- The 8-bit logical shift right by one (R169). -/
def shiftRightByte (a : Byte) : Byte := a >>> 1

/-- The bit a left shift moves out: bit 7 (R171). -/
def shiftedOutLeft (a : Byte) : Bool := a.getLsbD 7

/-- The 8-bit shift left by one, bit 0 becoming 0 (R171). -/
def shiftLeftByte (a : Byte) : Byte := a <<< 1

/-- `VF <- c`. -/
def State.setFlag (s : State) (c : Bool) : State := s.setV Config.flagReg (flagByte c)

/-- The common end of the five flag-writing instructions: `VF` first, the destination second (R173). -/
def State.flagThenResult (s : State) (x : Nibble) (c : Bool) (r : Byte) : State := (s.setFlag c).setV x r

end Sys2Proof.Machine
end

