-- ==== Sys2Proof/Machine/ControlFlow.lean ====
section
/-! DEFINITION. The control-flow instructions (spec/41_control_flow.md). Each meaning starts with `pc` already advanced to
`pc0 + 2` (R140); targets are not checked when `pc` is written. -/

namespace Sys2Proof.Machine

/-- Return (R141). -/
def execRet (s : State) : Host.Outcome State Fault Refusal :=
  if s.sp.val = 0 then .next (s.raiseExec .stackUnderflow 0)
  else .next (s.pop.setPc s.top)

/-- Jump (R142). -/
def execJump (nnn : Addr12) (s : State) : Host.Outcome State Fault Refusal :=
  .next (s.setPc (zextAddr nnn))

/-- Call (R143). -/
def execCall (nnn : Addr12) (s : State) : Host.Outcome State Fault Refusal :=
  if h : s.sp.val = 16 then .next (s.raiseExec .stackOverflow 16)
  else .next ((s.push s.pc h).setPc (zextAddr nnn))

/-- Jump-indexed (R144): the register is always `V[0]`, and the sum is not reduced modulo 4096. -/
def execJumpIndexed (nnn : Addr12) (s : State) : Host.Outcome State Fault Refusal :=
  .next (s.setPc (zextAddr nnn + zextByte (s.getV 0)))

/-- Skip-eq-imm (R145). -/
def execSkipEqImm (x : Nibble) (kk : Byte) (s : State) : Host.Outcome State Fault Refusal :=
  .next (s.skipIf (s.getV x == kk))

/-- Skip-neq-imm (R146). -/
def execSkipNeqImm (x : Nibble) (kk : Byte) (s : State) : Host.Outcome State Fault Refusal :=
  .next (s.skipIf (s.getV x != kk))

/-- Skip-eq-reg (R147). -/
def execSkipEqReg (x y : Nibble) (s : State) : Host.Outcome State Fault Refusal :=
  .next (s.skipIf (s.getV x == s.getV y))

/-- Skip-neq-reg (R148). -/
def execSkipNeqReg (x y : Nibble) (s : State) : Host.Outcome State Fault Refusal :=
  .next (s.skipIf (s.getV x != s.getV y))

end Sys2Proof.Machine
end

