-- ==== Sys2Proof/Machine/Display.lean ====
section
/-! DEFINITION. The framebuffer instructions and the XOR-blit sprite engine (spec/44_display.md). -/

namespace Sys2Proof.Machine

/-- The framebuffer so far and whether a lit cell has been turned off. -/
abbrev Blit := Framebuffer × Bool

/-- One set sprite bit at its target cell (R212, R216): a lit cell is cleared and a collision recorded, an unlit one is
set. -/
def blitPixel (row : Fin 32) (col : Fin 64) (acc : Blit) : Blit :=
  if cell acc.1 row col then (setCell acc.1 row col false, true) else (setCell acc.1 row col true, acc.2)

/-- The row a sprite row lands on: the sum first, then modulo 32 (R215). -/
def targetRow (vy : Byte) (r : Nat) : Fin 32 := Fin.ofNat 32 (vy.toNat + r)

/-- The column a pixel lands on: the sum first, then modulo 64 (R215). -/
def targetCol (vx : Byte) (c : Nat) : Fin 64 := Fin.ofNat 64 (vx.toNat + c)

/-- Whether the pixel at column offset `c` of a sprite byte is set: bit 7 is offset 0 (R214). -/
def spriteBit (b : Byte) (c : Nat) : Bool := b.getLsbD (7 - c)

/-- One sprite row: its eight pixels from the left; a zero bit leaves its cell as it is (R214). -/
def blitRow (vx : Byte) (row : Fin 32) (b : Byte) (acc : Blit) : Blit :=
  (List.range 8).foldl (fun a c => if spriteBit b c then blitPixel row (targetCol vx c) a else a) acc

/-- The rows of a sprite from row offset `r` on, top row first (R212). -/
def blitRows (vx vy : Byte) : Nat → List Byte → Blit → Blit
  | _, [], acc => acc
  | r, b :: bs, acc => blitRows vx vy (r + 1) bs (blitRow vx (targetRow vy r) b acc)

/-- `draw_sprite(rows, x, y)` (R210): the framebuffer after the blit, and whether it collided. -/
def drawSprite (fb : Framebuffer) (vx vy : Byte) (rows : List Byte) : Blit := blitRows vx vy 0 rows (fb, false)

/-- The sprite rows of a Draw: `n` bytes at `I` (R212). -/
def State.spriteRows (s : State) (n : Nibble) : List Byte := Memory.readRun s.mem (s.dataAddr 0) n.toNat

/-- Clear (R211). -/
def execClear (s : State) : Host.Outcome State Fault Refusal :=
  .next (s.setFb (Vector.replicate 32 0))

/-- Draw (R212): the coordinates are read before the flag is written, and the flag is always written; a count of 0 reads
nothing and cannot fail (R213). -/
def execDraw (x y n : Nibble) (s : State) : Host.Outcome State Fault Refusal :=
  if s.outOfBounds n.toNat then .next s.raiseBounds
  else
    let blit := drawSprite s.fb (s.getV x) (s.getV y) (s.spriteRows n)
    .next ((s.setFb blit.1).setFlag blit.2)

end Sys2Proof.Machine
end

