-- ==== Sys2Proof/Machine/IndexMemory.lean ====
section
/-! DEFINITION. The address-register and memory instructions (spec/43_index_memory.md). The bounds of a whole access are
checked before anything is read or written (R197), and no access changes `I` (R198). -/

namespace Sys2Proof.Machine

/-- Load-address (R191). -/
def execLoadAddress (nnn : Addr12) (s : State) : Host.Outcome State Fault Refusal :=
  .next (s.setI (zextAddr nnn))

/-- Add-to-index (R192): modulo 65536, no flag. -/
def execAddToIndex (x : Nibble) (s : State) : Host.Outcome State Fault Refusal :=
  .next (s.setI (s.i + zextByte (s.getV x)))

/-- Load-font-address (R193): the register's whole value times 5, not its low nibble. -/
def execLoadFontAddress (x : Nibble) (s : State) : Host.Outcome State Fault Refusal :=
  .next (s.setI (BitVec.ofNat 16 ((s.getV x).toNat * Config.glyphSize)))

/-- Store-BCD (R194). -/
def execStoreBcd (x : Nibble) (s : State) : Host.Outcome State Fault Refusal :=
  if s.outOfBounds 3 then .next s.raiseBounds
  else .next (s.setMem (Memory.writeRun s.mem (s.dataAddr 0) (bcdDigits (s.getV x))))

/-- Store-registers (R195). -/
def execStoreRegisters (x : Nibble) (s : State) : Host.Outcome State Fault Refusal :=
  if s.outOfBounds (x.toNat + 1) then .next s.raiseBounds
  else .next (s.setMem (Memory.writeRun s.mem (s.dataAddr 0) (s.regsUpTo x)))

/-- Load-registers (R196). -/
def execLoadRegisters (x : Nibble) (s : State) : Host.Outcome State Fault Refusal :=
  if s.outOfBounds (x.toNat + 1) then .next s.raiseBounds
  else .next (s.setAllV (s.loadedRegs x))

end Sys2Proof.Machine
end

