-- ==== Sys2Proof/Machine/InputTimers.lean ====
section
/-! DEFINITION. The key-input and timer instructions, and the key-poll step that completes a waiting Load-key
(spec/45_input_timers.md). `keys` is the snapshot latched for the step (R230). None can fail. -/

namespace Sys2Proof.Machine

/-- Skip-if-pressed (R231). -/
def execSkipIfPressed (x : Nibble) (s : State) : Host.Outcome State Fault Refusal :=
  .next (s.skipIf (keyPressed s.keys (s.getV x)))

/-- Skip-if-not-pressed (R232). -/
def execSkipIfNotPressed (x : Nibble) (s : State) : Host.Outcome State Fault Refusal :=
  .next (s.skipIf (!keyPressed s.keys (s.getV x)))

/-- Load-delay (R234). -/
def execLoadDelay (x : Nibble) (s : State) : Host.Outcome State Fault Refusal :=
  .next (s.setV x s.dt)

/-- Load-key (R235): with a key pressed it completes at once, else the core waits with `pc` already advanced. -/
def execLoadKey (x : Nibble) (s : State) : Host.Outcome State Fault Refusal :=
  .next (if s.keys = 0 then s.setStatus (.awaitKey x) else s.setV x (minKey s.keys))

/-- Set-delay (R237). -/
def execSetDelay (x : Nibble) (s : State) : Host.Outcome State Fault Refusal :=
  .next (s.setDt (s.getV x))

/-- Set-sound (R238). -/
def execSetSound (x : Nibble) (s : State) : Host.Outcome State Fault Refusal :=
  .next (s.setSt (s.getV x))

/-- The key-poll step of a core in `AwaitKey(x)` (R236): it fetches nothing and does not touch `pc`. -/
def State.poll (s : State) (x : Nibble) : State :=
  if s.keys = 0 then s else (s.setV x (minKey s.keys)).setStatus .running

end Sys2Proof.Machine
end

