-- ==== Sys2Proof/Machine/LoadArith.lean ====
section
/-! DEFINITION. The register load, arithmetic, logic, shift and random instructions (spec/42_load_arith_logic.md). None
can fail. -/

namespace Sys2Proof.Machine

/-- Load-imm (R161). -/
def execLoadImm (x : Nibble) (kk : Byte) (s : State) : Host.Outcome State Fault Refusal :=
  .next (s.setV x kk)

/-- Add-imm (R162): no flag. -/
def execAddImm (x : Nibble) (kk : Byte) (s : State) : Host.Outcome State Fault Refusal :=
  .next (s.setV x (sumByte (s.getV x) kk))

/-- Load-reg (R163). -/
def execLoadReg (x y : Nibble) (s : State) : Host.Outcome State Fault Refusal :=
  .next (s.setV x (s.getV y))

/-- Or (R164): no flag (R176). -/
def execOrReg (x y : Nibble) (s : State) : Host.Outcome State Fault Refusal :=
  .next (s.setV x (s.getV x ||| s.getV y))

/-- And (R165): no flag (R176). -/
def execAndReg (x y : Nibble) (s : State) : Host.Outcome State Fault Refusal :=
  .next (s.setV x (s.getV x &&& s.getV y))

/-- Xor (R166): no flag (R176). -/
def execXorReg (x y : Nibble) (s : State) : Host.Outcome State Fault Refusal :=
  .next (s.setV x (s.getV x ^^^ s.getV y))

/-- Add-reg (R167). -/
def execAddReg (x y : Nibble) (s : State) : Host.Outcome State Fault Refusal :=
  .next (s.flagThenResult x (carryFlag (s.getV x) (s.getV y)) (sumByte (s.getV x) (s.getV y)))

/-- Sub-reg (R168). -/
def execSubReg (x y : Nibble) (s : State) : Host.Outcome State Fault Refusal :=
  .next (s.flagThenResult x (noBorrowFlag (s.getV x) (s.getV y)) (differenceByte (s.getV x) (s.getV y)))

/-- Shift-right (R169); the `y` field is ignored (R177). -/
def execShiftRight (x : Nibble) (s : State) : Host.Outcome State Fault Refusal :=
  .next (s.flagThenResult x (shiftedOutRight (s.getV x)) (shiftRightByte (s.getV x)))

/-- Sub-negated (R170). -/
def execSubNegated (x y : Nibble) (s : State) : Host.Outcome State Fault Refusal :=
  .next (s.flagThenResult x (noBorrowFlag (s.getV y) (s.getV x)) (differenceByte (s.getV y) (s.getV x)))

/-- Shift-left (R171); the `y` field is ignored (R177). -/
def execShiftLeft (x : Nibble) (s : State) : Host.Outcome State Fault Refusal :=
  .next (s.flagThenResult x (shiftedOutLeft (s.getV x)) (shiftLeftByte (s.getV x)))

/-- Random (R172): the random byte is the one latched for this step, any byte (spec/10_state.md R47). -/
def execRandom (x : Nibble) (kk : Byte) (s : State) : Host.Outcome State Fault Refusal :=
  .next (s.setV x (s.rnd &&& kk))

end Sys2Proof.Machine
end

