-- ==== Sys2Proof/Machine/Dispatch.lean ====
section
/-! DEFINITION. Phase 5 of a step (spec/40_step_cycle.md R126): one arm per instruction, each one call of its meaning. -/

namespace Sys2Proof.Machine

def exec (i : Instr) (s : State) : Host.Outcome State Fault Refusal :=
  match i with
  | .clear => Sys2Proof.Machine.execClear s
  | .ret => Sys2Proof.Machine.execRet s
  | .jump nnn => Sys2Proof.Machine.execJump nnn s
  | .call nnn => Sys2Proof.Machine.execCall nnn s
  | .skipEqImm x kk => Sys2Proof.Machine.execSkipEqImm x kk s
  | .skipNeqImm x kk => Sys2Proof.Machine.execSkipNeqImm x kk s
  | .skipEqReg x y => Sys2Proof.Machine.execSkipEqReg x y s
  | .loadImm x kk => Sys2Proof.Machine.execLoadImm x kk s
  | .addImm x kk => Sys2Proof.Machine.execAddImm x kk s
  | .loadReg x y => Sys2Proof.Machine.execLoadReg x y s
  | .orReg x y => Sys2Proof.Machine.execOrReg x y s
  | .andReg x y => Sys2Proof.Machine.execAndReg x y s
  | .xorReg x y => Sys2Proof.Machine.execXorReg x y s
  | .addReg x y => Sys2Proof.Machine.execAddReg x y s
  | .subReg x y => Sys2Proof.Machine.execSubReg x y s
  | .shiftRight x _ => Sys2Proof.Machine.execShiftRight x s
  | .subNegated x y => Sys2Proof.Machine.execSubNegated x y s
  | .shiftLeft x _ => Sys2Proof.Machine.execShiftLeft x s
  | .skipNeqReg x y => Sys2Proof.Machine.execSkipNeqReg x y s
  | .loadAddress nnn => Sys2Proof.Machine.execLoadAddress nnn s
  | .jumpIndexed nnn => Sys2Proof.Machine.execJumpIndexed nnn s
  | .random x kk => Sys2Proof.Machine.execRandom x kk s
  | .draw x y n => Sys2Proof.Machine.execDraw x y n s
  | .skipIfPressed x => Sys2Proof.Machine.execSkipIfPressed x s
  | .skipIfNotPressed x => Sys2Proof.Machine.execSkipIfNotPressed x s
  | .loadDelay x => Sys2Proof.Machine.execLoadDelay x s
  | .loadKey x => Sys2Proof.Machine.execLoadKey x s
  | .setDelay x => Sys2Proof.Machine.execSetDelay x s
  | .setSound x => Sys2Proof.Machine.execSetSound x s
  | .addToIndex x => Sys2Proof.Machine.execAddToIndex x s
  | .loadFontAddress x => Sys2Proof.Machine.execLoadFontAddress x s
  | .storeBcd x => Sys2Proof.Machine.execStoreBcd x s
  | .storeRegisters x => Sys2Proof.Machine.execStoreRegisters x s
  | .loadRegisters x => Sys2Proof.Machine.execLoadRegisters x s

end Sys2Proof.Machine
end

