-- ==== Sys2Proof/Machine/Cycle.lean ====
section
/-! DEFINITION. The step cycle and its scheduling (spec/40_step_cycle.md): fetch checks, fetch, advance, decode, execute;
and what one step boundary does under the inputs the environment presents. Also how a word is placed where the next
instruction is fetched. -/

namespace Sys2Proof.Machine

/-- Whether the fetch checks of R122 pass: `pc` even and at most 4094. -/
def State.fetchable (s : State) : Bool := decide (s.pc.toNat % 2 = 0 ∧ s.pc.toNat ≤ 4094)

/-- Phase 2b (R123): the word at `pc` and `pc + 1`, high byte first. -/
def State.fetchWord (s : State) : Word :=
  wordOfBytes (Memory.read s.mem s.pc.toNat) (Memory.read s.mem (s.pc.toNat + 1))

/-- The instruction step after its inputs are latched, phases 2 to 5 (R129). -/
def instructionStep (s : State) : Host.Outcome State Fault Refusal :=
  if s.pc.toNat % 2 = 1 then .next (s.raise .pcMisaligned s.pc s.pc)
  else if s.pc.toNat > 4094 then .next (s.raise .fetchBounds s.pc s.pc)
  else
    match decode s.fetchWord with
    | .decodeFailure => .next (s.advance.raise .decodeFailure s.pc s.fetchWord)
    | .instr i => exec i s.advance

/-- The state a core step of this boundary starts from: the boundary passed, its ticks applied (R131, R132), its keys
and random byte latched (R121). -/
def State.stepStart (s : State) : State := (s.passBoundary.ticks s.sampled.ticks).latch s.sampled

/-- One step boundary. While `rst = 1` the core is held at its reset values and the loader port is open (R49, R51);
otherwise the ticks that have arrived are applied, and with `run = 1` the core takes its step: an instruction step when
`Running`, a key-poll step when `AwaitKey` (R120, R128). A `Faulted` core has no step and no tick until reset (R262): a
boundary without reset passes it by, and when no boundary is left to come it is stuck (notes/assumptions/6.md). -/
def boundaryStep (s : State) : Host.Outcome State Fault Refusal :=
  if s.sampled.rst then .next (s.passBoundary.resetEvent.loaderWrite s.sampled.load)
  else
    match s.status with
    | .faulted c pc0 info => if s.inputs = [] then .fault (.halted c pc0 info) else .next s.passBoundary
    | .running => if s.sampled.run then instructionStep s.stepStart else .next (s.passBoundary.ticks s.sampled.ticks)
    | .awaitKey x => .next (if s.sampled.run then s.stepStart.poll x else s.passBoundary.ticks s.sampled.ticks)

/-- The instruction that the coming step executes, if it executes one. -/
def State.issued (s : State) : Option Instr :=
  if s.sampled.rst = false ∧ s.sampled.run = true ∧ s.status = .running ∧ s.fetchable = true then
    match decode s.fetchWord with
    | .instr i => some i
    | .decodeFailure => none
  else none

/-- The inputs from the first one at which the core may step. -/
def steppableInputs (l : List Input) : List Input := l.dropWhile (fun inp => inp.rst || !inp.run)

/-- The state ready to fetch, for a word to be placed at its `pc`: `Running`, no held or resetting input before the step,
and `pc` at the reset vector where it cannot be fetched from. A state that is ready already is not changed. -/
def State.readyToFetch (s : State) : State :=
  { s with
    status := .running
    inputs := steppableInputs s.inputs
    pc := if s.fetchable then s.pc else 0x200 }

/-- Stores a table word at `pc`, high byte first, in a state made ready to fetch it. -/
def State.placeWord (s : State) (w : Word) : State :=
  s.readyToFetch.setMem (Memory.writeRun s.mem s.readyToFetch.pc.toNat [wordHi w, wordLo w])

end Sys2Proof.Machine
end

