-- ==== Sys2Proof/Machine/Signals.lean ====
section
/-! DEFINITION. The output signals of spec/10_state.md R45: pure functions of the state at a step boundary, with no state of
their own (R34, R52). -/

namespace Sys2Proof.Machine

/-- `tone`: 1 exactly when `ST > 0` (R34). -/
def State.tone (s : State) : Bool := decide (s.st.toNat > 0)

/-- The framebuffer read port (R52): `fb_data` for the 11-bit `fb_addr`, cell `FB[fb_addr]`. -/
def State.fbData (s : State) (k : BitVec 11) : Bool :=
  cell s.fb (Fin.ofNat 32 (k.toNat / 64)) (Fin.ofNat 64 (k.toNat % 64))

/-- `st_running` (R52). -/
def State.stRunning (s : State) : Bool := decide (s.status = .running)

/-- `st_await_key` (R52). -/
def State.stAwaitKey (s : State) : Bool :=
  match s.status with
  | .awaitKey _ => true
  | _ => false

/-- `st_fault` (R52). -/
def State.stFault (s : State) : Bool :=
  match s.status with
  | .faulted _ _ _ => true
  | _ => false

/-- The cause codes of spec/60_exceptions.md R251. -/
def Cause.code : Cause → BitVec 3
  | .decodeFailure => 1
  | .stackOverflow => 2
  | .stackUnderflow => 3
  | .boundsFailure => 4
  | .fetchBounds => 5
  | .pcMisaligned => 6

/-- `fault_cause`: the cause code, 0 while there is no fault (R52). -/
def State.faultCause (s : State) : BitVec 3 :=
  match s.status with
  | .faulted c _ _ => c.code
  | _ => 0

/-- `fault_pc`, 0 while there is no fault (R52). -/
def State.faultPc (s : State) : Word :=
  match s.status with
  | .faulted _ pc0 _ => pc0
  | _ => 0

/-- `fault_info`, 0 while there is no fault (R52). -/
def State.faultInfo (s : State) : Word :=
  match s.status with
  | .faulted _ _ info => info
  | _ => 0

/-- `fb_dirty`: whether the coming step completes a Clear or a Draw that does not fail, whether or not a cell changes
(R52, spec/44_display.md R220). A pulse of the step, not state. -/
def State.fbDirty (s : State) : Bool :=
  match s.issued with
  | some .clear => true
  | some (.draw _ _ n) => !s.outOfBounds n.toNat
  | _ => false

end Sys2Proof.Machine
end

