-- ==== Sys2Proof/Safety.lean ====
section
/-! DEFINITION. The terms claims are written in: when a core step happens, what a run may never reach, the invariant of every
step, which state an instruction may change, and where a sprite lands. -/

namespace Sys2Proof.Machine

/-- A state that no failure has stopped (spec/60_exceptions.md R262: `Faulted` is never a good end). -/
def State.Safe (s : State) : Prop := s.stFault = false

/-- An instruction step is enabled at the coming boundary (spec/40_step_cycle.md R120). -/
def State.StepEnabled (s : State) : Prop :=
  s.sampled.rst = false ∧ s.sampled.run = true ∧ s.status = .running

/-- An instruction step is enabled and its fetch checks pass (R120, R122). -/
def State.FetchEnabled (s : State) : Prop := s.StepEnabled ∧ s.fetchable = true

/-- The word an instruction can resume at: even, from 2 to 4096 (spec/10_state.md R32). -/
def ReturnAddress (w : Word) : Prop := w.toNat % 2 = 0 ∧ 2 ≤ w.toNat ∧ w.toNat ≤ 4096

/-- The invariant of every step: the RAM list is canonical, `pc` is at most 0x10FE (R26, R28), and every active stack
entry is the address of the instruction after a Call (R32). -/
structure State.Inv (s : State) : Prop where
  memory : Memory.wf s.mem
  pcBound : s.pc.toNat ≤ 0x10FE
  frames : ∀ j : Fin 16, j.val < s.sp.val → ReturnAddress s.stk[j.val]

/-- What a change of state may touch: registers and RAM addresses by list, the rest by flag. -/
structure Footprint where
  regs : List Nibble := []
  i : Bool := false
  pc : Bool := false
  sp : Bool := false
  stk : Bool := false
  dt : Bool := false
  st : Bool := false
  fb : Bool := false
  status : Bool := false
  mem : List Nat := []

/-- Going from `s` to `t` changed nothing outside the footprint (spec/00_scope.md R12). RAM is compared byte by byte. -/
structure Frame (p : Footprint) (s t : State) : Prop where
  regs : ∀ r : Nibble, r ∉ p.regs → t.getV r = s.getV r
  i : p.i = false → t.i = s.i
  pc : p.pc = false → t.pc = s.pc
  sp : p.sp = false → t.sp = s.sp
  stk : p.stk = false → t.stk = s.stk
  dt : p.dt = false → t.dt = s.dt
  st : p.st = false → t.st = s.st
  fb : p.fb = false → t.fb = s.fb
  status : p.status = false → t.status = s.status
  mem : ∀ a : Nat, a ∉ p.mem → Memory.read t.mem a = Memory.read s.mem a
  keys : t.keys = s.keys
  rnd : t.rnd = s.rnd
  inputs : t.inputs = s.inputs
  boundary : t.boundary = s.boundary

/-- The registers `V[0]` to `V[x]`. -/
def regsThrough (x : Nibble) : List Nibble := (List.range (x.toNat + 1)).map (BitVec.ofNat 4)

/-- The `m` byte addresses of a data access at `I` (spec/20_memory.md R65). -/
def State.dataAddrs (s : State) (m : Nat) : List Nat := (List.range m).map s.dataAddr

/-- What the rule of each instruction lets it change in phase 5 (R12; "Flags written", "Failures" and pseudocode of the
instruction rules). `pc` is listed where the rule writes it beyond the common advance, `status` where the rule can
raise a failure or wait. -/
def footprint (s : State) : Instr → Footprint
  | .clear => { fb := true }
  | .ret => { pc := true, sp := true, status := true }
  | .jump _ => { pc := true }
  | .call _ => { pc := true, sp := true, stk := true, status := true }
  | .skipEqImm _ _ => { pc := true }
  | .skipNeqImm _ _ => { pc := true }
  | .skipEqReg _ _ => { pc := true }
  | .loadImm x _ => { regs := [x] }
  | .addImm x _ => { regs := [x] }
  | .loadReg x _ => { regs := [x] }
  | .orReg x _ => { regs := [x] }
  | .andReg x _ => { regs := [x] }
  | .xorReg x _ => { regs := [x] }
  | .addReg x _ => { regs := [x, 15] }
  | .subReg x _ => { regs := [x, 15] }
  | .shiftRight x _ => { regs := [x, 15] }
  | .subNegated x _ => { regs := [x, 15] }
  | .shiftLeft x _ => { regs := [x, 15] }
  | .skipNeqReg _ _ => { pc := true }
  | .loadAddress _ => { i := true }
  | .jumpIndexed _ => { pc := true }
  | .random x _ => { regs := [x] }
  | .draw _ _ _ => { regs := [15], fb := true, status := true }
  | .skipIfPressed _ => { pc := true }
  | .skipIfNotPressed _ => { pc := true }
  | .loadDelay x => { regs := [x] }
  | .loadKey x => { regs := [x], status := true }
  | .setDelay _ => { dt := true }
  | .setSound _ => { st := true }
  | .addToIndex _ => { i := true }
  | .loadFontAddress _ => { i := true }
  | .storeBcd _ => { mem := s.dataAddrs 3, status := true }
  | .storeRegisters x => { mem := s.dataAddrs (x.toNat + 1), status := true }
  | .loadRegisters x => { regs := regsThrough x, status := true }

/-- Whether a set bit of the `n`-row sprite at `I`, placed at column `vx` and row `vy`, lands on the cell at (`row`,
`col`): bit 7 of a byte is column offset 0, and both coordinates wrap (spec/44_display.md R214, R215). -/
def State.spriteCovers (s : State) (vx vy : Byte) (n : Nat) (row : Fin 32) (col : Fin 64) : Prop :=
  ∃ r c : Nat, r < n ∧ c < 8 ∧ (Memory.read s.mem (s.i.toNat + r)).getLsbD (7 - c) = true ∧
    row.val = (vy.toNat + r) % 32 ∧ col.val = (vx.toNat + c) % 64

/-- The meanings of a list of instructions one after the other, each on the state the one before left; it stops at the
first that gives no next state. -/
def execAll : List Instr → State → Host.Outcome State Fault Refusal
  | [], s => .next s
  | i :: is, s =>
    match exec i s with
    | .next t => execAll is t
    | .fault f => .fault f
    | .refused r => .refused r

/-- A word with its `y` field, bits 7 to 4, replaced. -/
def withFieldY (w : Word) (y : Nibble) : Word := w.extractLsb' 8 8 ++ y ++ w.extractLsb' 0 4

end Sys2Proof.Machine
end

