-- ==== Sys2Proof/Certificates/Slice0/Obligations.lean ====
section
/-! DEFINITION. The statements for the provers, each about the machine and none about a program. A docstring names the rules
of spec/ a statement follows and, where a clause rests on a decision or an inference the spec marks as its own, or on a
choice of the model's, says so. The numeric opcode values of the encoding clauses are, but for `0x00E0`, `0x00EE`, the top
nibbles 1, 6, 0xA, 0xD and `8xy4`, marked in the spec as general knowledge (spec/93_implementation_defined.md G1).
`exec i s` is phase 5 of a step: `s.pc` is the advanced `pc0 + 2` (spec/41_control_flow.md R140). -/

open Sys2Proof Sys2Proof.Machine

/-! ### Encoding and decoding (spec/30_encoding.md) -/

/-- Words written out from the patterns of R100, at least one per family, with T-DEC words of spec/95_test_vectors.md that
must fail (R96, R102, R103). -/
def Obligations.WordsOfTheSpecDecode : Prop :=
  decode 0x00E0 = .instr .clear ∧ decode 0x00EE = .instr .ret ∧
  decode 0x1ABC = .instr (.jump 0xABC) ∧ decode 0x3A7F = .instr (.skipEqImm 10 0x7F) ∧
  decode 0x6305 = .instr (.loadImm 3 0x05) ∧ decode 0x8AB7 = .instr (.subNegated 10 11) ∧
  decode 0xA2F0 = .instr (.loadAddress 0x2F0) ∧ decode 0xD015 = .instr (.draw 0 1 5) ∧
  decode 0xE1A1 = .instr (.skipIfNotPressed 1) ∧ decode 0xF30A = .instr (.loadKey 3) ∧
  decode 0xFF65 = .instr (.loadRegisters 15) ∧ decode 0x01E0 = .decodeFailure ∧
  decode 0x5121 = .decodeFailure ∧ decode 0x8AB8 = .decodeFailure ∧ decode 0xFFFF = .decodeFailure

/-- R92: the operand fields are arithmetic on the word, the same ranges for every instruction, and they overlap. -/
def Obligations.OperandFieldsAreBitRanges : Prop :=
  ∀ w : Word,
    (fieldOp w).toNat = w.toNat / 4096 ∧
    (fieldX w).toNat = w.toNat / 256 % 16 ∧
    (fieldY w).toNat = w.toNat / 16 % 16 ∧
    (fieldKk w).toNat = w.toNat % 256 ∧
    (fieldNnn w).toNat = w.toNat % 4096 ∧
    (fieldN w).toNat = w.toNat % 16 ∧
    (fieldNnn w).toNat = (fieldX w).toNat * 256 + (fieldY w).toNat * 16 + (fieldN w).toNat ∧
    (fieldKk w).toNat = (fieldY w).toNat * 16 + (fieldN w).toNat

/-- Decode and encode agree on all 34 instructions with every operand (R93, R95, R100). -/
def Obligations.EncodedInstructionDecodesToItself : Prop :=
  ∀ i : Instr, decode (encode i) = .instr i

/-- A word has one meaning and no bit of it is dropped: the word an instruction was decoded from is its encoding
(R91, R95, R100). -/
def Obligations.DecodedWordIsItsEncoding : Prop :=
  ∀ (w : Word) (i : Instr), decode w = .instr i → encode i = w

/-- The layered decoder is the opcode map of R100: it answers an instruction whose row accepts the word, and fails exactly
on the words no row accepts (R103); the rows are disjoint. The strict matching is the spec's decision D4. -/
def Obligations.DecoderFollowsTheOpcodeMap : Prop :=
  ∀ w : Word,
    (∀ i : Instr, decode w = .instr i → i.row ∈ opcodeMap ∧ i.row.accepts w = true) ∧
    (decode w = .decodeFailure ↔ wellFormedWord w = false) ∧
    opcodeMap.Pairwise fun r q => ¬(r.accepts w = true ∧ q.accepts w = true)

/-! ### The step cycle (spec/40_step_cycle.md) -/

/-- R123: after the fetch checks the word is `Mem[pc] * 256 + Mem[pc + 1]`, both addresses in range. -/
def Obligations.FetchIsBigEndianAndInRange : Prop :=
  ∀ s : State, s.fetchable = true →
    s.fetchWord.toNat =
      (Memory.read s.mem s.pc.toNat).toNat * 256 + (Memory.read s.mem (s.pc.toNat + 1)).toNat ∧
    s.pc.toNat + 1 ≤ 4095

/-- A step runs the decoded instruction (R120, R123, R125, R126): it is `exec` of it on the state with the boundary's ticks
applied, its keys and random byte latched and `pc` advanced. That ticks come before the core step is R131. -/
def Obligations.StepRunsTheDecodedInstruction : Prop :=
  ∀ (s : State) (i : Instr), s.FetchEnabled → decode s.fetchWord = .instr i →
    step s = exec i s.stepStart.advance ∧
    s.stepStart = { s with
      dt := s.stepStart.dt
      st := s.stepStart.st
      keys := s.sampled.keys
      rnd := s.sampled.rnd
      inputs := s.inputs.tail
      boundary := s.boundary + 1 } ∧
    s.stepStart.dt.toNat = s.dt.toNat - s.sampled.ticks ∧
    s.stepStart.st.toNat = s.st.toNat - s.sampled.ticks

/-- R124: the advance by 2 happens before decode and before execution, whatever they give, and never wraps. -/
def Obligations.AdvanceNeverWraps : Prop :=
  ∀ s : State, s.fetchable = true →
    s.stepStart.advance.pc.toNat = s.pc.toNat + 2 ∧ s.pc.toNat + 2 ≤ 4096 ∧
    Frame { pc := true } s.stepStart s.stepStart.advance ∧
    (∀ i : Instr, s.StepEnabled → decode s.fetchWord = .instr i → step s = exec i s.stepStart.advance) ∧
    (s.StepEnabled → decode s.fetchWord = .decodeFailure →
      ∃ t, step s = .next t ∧ t.pc = s.stepStart.advance.pc)

/-- R125: a word that decodes to nothing ends the step with DecodeFailure, `pc` advanced and nothing else changed;
otherwise the step executes one instruction, whose fields are those of the word. -/
def Obligations.IllegalWordIsDecodeFailure : Prop :=
  ∀ s : State, s.FetchEnabled →
    (decode s.fetchWord = .decodeFailure →
      ∃ t, step s = .next t ∧ t.status = .faulted .decodeFailure s.pc s.fetchWord ∧
        t.pc = s.pc + 2 ∧ Frame { pc := true, status := true } s.stepStart t) ∧
    (decode s.fetchWord ≠ .decodeFailure →
      ∃ i, decode s.fetchWord = .instr i ∧ encode i = s.fetchWord ∧ step s = exec i s.stepStart.advance)

/-- The fetch checks (R122): an odd `pc` is PcMisaligned whatever its size, an even one above 4094 is FetchBounds; `pc` stays
and nothing else changes, whatever the RAM holds. The order of the two checks is the spec's decision D10. -/
def Obligations.FetchChecksRaise : Prop :=
  ∀ s : State, s.StepEnabled →
    (s.pc.toNat % 2 = 1 →
      ∃ t, step s = .next t ∧ t.status = .faulted .pcMisaligned s.pc s.pc ∧
        Frame { status := true } s.stepStart t) ∧
    (s.pc.toNat % 2 = 0 → s.pc.toNat > 4094 →
      ∃ t, step s = .next t ∧ t.status = .faulted .fetchBounds s.pc s.pc ∧
        Frame { status := true } s.stepStart t)

/-- R258: an odd `pc` fails at fetch, and in a state that meets the invariant it can arise only from a Jump, a Call or a
Jump-indexed to an odd target. -/
def Obligations.OddPcComesOnlyFromJumps : Prop :=
  (∀ s : State, s.StepEnabled → s.pc.toNat % 2 = 1 →
    ∃ t, step s = .next t ∧ t.status = .faulted .pcMisaligned s.pc s.pc) ∧
  ∀ s t : State, s.Inv → s.pc.toNat % 2 = 0 → step s = .next t → t.pc.toNat % 2 = 1 →
    ∃ nnn : Addr12,
      (s.issued = some (.jump nnn) ∧ nnn.toNat % 2 = 1) ∨
      (s.issued = some (.call nnn) ∧ nnn.toNat % 2 = 1) ∨
      (s.issued = some (.jumpIndexed nnn) ∧ (nnn.toNat + (s.getV 0).toNat) % 2 = 1)

/-- Failures are precise (R127, R252, R262, decision D9): a running core that a step leaves Faulted has the `pc` of the failing
instruction recorded, `pc` itself advanced unless the failure was one of the two fetch checks, and nothing else changed; the
fault outputs show that record. In every state the three status lines tell which status it is, and the fault outputs carry
the record with the cause codes of R251 while it is Faulted and are 0 otherwise (R52; decisions D1 and D18, and
notes/assumptions/13.md for the outputs as functions of the state). -/
def Obligations.FailuresArePrecise : Prop :=
  (∀ (s t : State) (c : Cause) (p n : Word), s.status = .running → step s = .next t →
    t.status = .faulted c p n →
    p = s.pc ∧
    t.pc = (if c = .fetchBounds ∨ c = .pcMisaligned then s.pc else s.pc + 2) ∧
    Frame { pc := true, status := true } s.stepStart t ∧
    t.faultPc = s.pc ∧ t.faultInfo = n ∧ t.faultCause = c.code) ∧
  (∀ s : State,
    (s.stRunning = true ↔ s.status = .running) ∧
    (s.stAwaitKey = true ↔ ∃ x, s.status = .awaitKey x) ∧
    (s.stFault = true ↔ ∃ c p n, s.status = .faulted c p n)) ∧
  (∀ (s : State) (c : Cause) (p n : Word), s.status = .faulted c p n →
    s.faultPc = p ∧ s.faultInfo = n ∧
    (c = .decodeFailure → s.faultCause = 1) ∧ (c = .stackOverflow → s.faultCause = 2) ∧
    (c = .stackUnderflow → s.faultCause = 3) ∧ (c = .boundsFailure → s.faultCause = 4) ∧
    (c = .fetchBounds → s.faultCause = 5) ∧ (c = .pcMisaligned → s.faultCause = 6)) ∧
  (∀ s : State, s.stFault = false → s.faultCause = 0 ∧ s.faultPc = 0 ∧ s.faultInfo = 0)

/-- Which instruction can raise which cause, when, and with which recorded value (R251, R261): no instruction raises two,
and every other instruction none. -/
def Obligations.EachInstructionRaisesItsOwnCause : Prop :=
  ∀ (i : Instr) (s t : State) (c : Cause) (p n : Word), s.status = .running → exec i s = .next t →
    t.status = .faulted c p n →
    p = s.pc - 2 ∧
    ((c = .stackOverflow ∧ (∃ nnn, i = .call nnn) ∧ s.sp.val = 16 ∧ n = 16) ∨
     (c = .stackUnderflow ∧ i = .ret ∧ s.sp.val = 0 ∧ n = 0) ∨
     (c = .boundsFailure ∧ n.toNat = max s.i.toNat 4096 ∧
       ((∃ x y k, i = .draw x y k ∧ 1 ≤ k.toNat ∧ s.i.toNat + (k.toNat - 1) > 4095) ∨
        (∃ x, i = .storeBcd x ∧ s.i.toNat + 2 > 4095) ∨
        (∃ x, i = .storeRegisters x ∧ s.i.toNat + x.toNat > 4095) ∨
        (∃ x, i = .loadRegisters x ∧ s.i.toNat + x.toNat > 4095))))

/-- A Faulted core takes no step and no tick until reset, the only way out (R128, R262, R264, decision D9): a boundary without
reset changes nothing, and with no boundary left to come the core is stuck. Nothing else stops the machine: every instruction
answers a next state in every state, no step refuses, and a step faults only on a Faulted core with no reset to come. -/
def Obligations.OnlyAFaultedCoreStops : Prop :=
  (∀ (s : State) (c : Cause) (p n : Word), s.status = .faulted c p n →
    (s.inputs = [] → step s = .fault (.halted c p n)) ∧
    (s.inputs ≠ [] → s.sampled.rst = false → step s = .next { s with
      inputs := s.inputs.tail
      boundary := s.boundary + 1 }) ∧
    (s.sampled.rst = true → ∃ t, step s = .next t ∧ t.Safe ∧ t.pc = 0x200)) ∧
  (∀ (i : Instr) (s : State), ∃ t, exec i s = .next t) ∧
  (∀ (s : State) (r : Refusal), step s ≠ .refused r) ∧
  (∀ (s : State) (f : Fault), step s = .fault f →
    s.inputs = [] ∧ ¬s.Safe ∧ ∃ c p n, f = .halted c p n ∧ s.status = .faulted c p n)

/-! ### Ticks, the host and reset -/

/-- R130: the tick event counts both timers down, saturating at 0, and changes nothing else; `tone` follows `ST`. It happens
for a pulse at a boundary without reset when the core is not Faulted, here one at which the core may not step; a Faulted core
accepts none, nor does a core held in reset. -/
def Obligations.TickCountsBothTimersDown : Prop :=
  ∀ s : State,
    (s.tick.dt.toNat = s.dt.toNat - 1 ∧ s.tick.st.toNat = s.st.toNat - 1 ∧
      Frame { dt := true, st := true } s s.tick ∧ (s.tick.tone = true ↔ s.tick.st.toNat > 0)) ∧
    (s.sampled.ticks = 1 → s.sampled.rst = false → s.sampled.run = false → s.Safe →
      step s = .next s.passBoundary.tick) ∧
    (∀ t : State, step s = .next t → s.sampled.rst = false → ¬s.Safe → t.dt = s.dt ∧ t.st = s.st) ∧
    (∀ (inp : Input) (rest : List Input) (n : Nat), inp.rst = true →
      step { s with inputs := { inp with ticks := n } :: rest } =
        step { s with inputs := { inp with ticks := 0 } :: rest })

/-- `n` ticks are the tick event `n` times, so `DT` is `max(v - n, 0)` after them (R133 (c)). -/
def Obligations.TicksAreTheTickEventRepeated : Prop :=
  ∀ (s : State) (n : Nat),
    s.ticks n = State.tick^[n] s ∧ (s.ticks n).dt.toNat = s.dt.toNat - n ∧ (s.ticks n).st.toNat = s.st.toNat - n

/-- No step raises a timer but by its own Set instruction (R133 (b)): `DT` only by Set-delay, `ST` only by Set-sound. -/
def Obligations.TimersOnlyFallUnlessSet : Prop :=
  ∀ s t : State, step s = .next t →
    (s.dt.toNat < t.dt.toNat → ∃ x, s.issued = some (.setDelay x)) ∧
    (s.st.toNat < t.st.toNat → ∃ x, s.issued = some (.setSound x))

/-- With `run = 0` nothing changes but the timers, also while a key is awaited (R50, R131, decisions D14 and D22). -/
def Obligations.StoppedCoreOnlyTicks : Prop :=
  ∀ s : State, s.sampled.rst = false → s.sampled.run = false → s.Safe →
    ∃ t, step s = .next t ∧ Frame { dt := true, st := true } s.passBoundary t ∧
      t.dt.toNat = s.dt.toNat - s.sampled.ticks ∧ t.st.toNat = s.st.toNat - s.sampled.ticks

/-- R292: the reset vector is 0x200, and the first instruction after reset is the word at 0x200 and 0x201. -/
def Obligations.ResetVectorIs200 : Prop :=
  State.reset.pc = 0x200 ∧
  ∀ s : State, s.sampled.rst = true →
    ∃ t, step s = .next t ∧ t.pc = 0x200 ∧
      t.fetchWord = wordOfBytes (Memory.read t.mem 0x200) (Memory.read t.mem 0x201)

/-- The reset event from any state (R290, R55, R56; T-RST-1), with or without a loader write at its boundary: the values other
than `pc` are the spec's decision D15, and that the RAM and the stack entries are not cleared is its decision D16, so that
no byte but the one the loader writes changes. Reset is also the exit from `AwaitKey`. -/
def Obligations.ResetEventSetsEveryRegister : Prop :=
  ∀ s : State, s.sampled.rst = true →
    ∃ t, step s = .next t ∧ (∀ r, t.getV r = 0) ∧ t.i = 0 ∧ t.pc = 0x200 ∧ t.sp.val = 0 ∧ t.dt = 0 ∧ t.st = 0 ∧
      t.tone = false ∧ (∀ row col, cell t.fb row col = false) ∧ t.status = .running ∧ t.stk = s.stk ∧
      (s.sampled.load = none → t.mem = s.mem) ∧
      (∀ c : Nat, (∀ a b, s.sampled.load = some (a, b) → c ≠ a.toNat) → Memory.read t.mem c = Memory.read s.mem c)

/-- The loader port (R51, R297, decision D20): one byte per use while `rst = 1`, ignored while `rst = 0`. -/
def Obligations.LoaderWritesOnlyInReset : Prop :=
  ∀ (s : State) (inp : Input) (rest : List Input) (a : Addr12) (b : Byte),
    (Memory.wf s.mem → s.inputs = inp :: rest → inp.rst = true → inp.load = some (a, b) →
      ∃ t, step s = .next t ∧ Memory.read t.mem a.toNat = b ∧
        ∀ c, c ≠ a.toNat → Memory.read t.mem c = Memory.read s.mem c) ∧
    (inp.rst = false →
      step { s with inputs := { inp with load := some (a, b) } :: rest } =
        step { s with inputs := { inp with load := none } :: rest })

/-- The state of a launch (R73, R294, R296): over any RAM, the font at 0x000, the image at 0x200, every other byte as it was; no
launch for an image longer than 3584 bytes. That a launch is a parameter and not an event is the spec's decision D16. -/
def Obligations.LaunchLoadsFontAndImage : Prop :=
  ∀ (ram : Memory) (font image : List Byte), Memory.wf ram → font.length = 80 →
    (image.length > 3584 → State.launch ram font image = none) ∧
    (image.length ≤ 3584 →
      ∃ s, State.launch ram font image = some s ∧
        (∀ (a : Nat) (h : a < font.length), Memory.read s.mem a = font[a]) ∧
        (∀ (k : Nat) (h : k < image.length), Memory.read s.mem (0x200 + k) = image[k]) ∧
        (∀ a, 80 ≤ a → a < 0x200 ∨ 0x200 + image.length ≤ a → Memory.read s.mem a = Memory.read ram a) ∧
        s = State.reset.setMem s.mem)

/-! ### Invariant and frame -/

/-- Every step keeps the invariant, in every state that meets it and under every input (R26, R28, R32; spec/20_memory.md R61,
R64): the RAM stays canonical and inside its 4096 bytes, `pc` stays at most 0x10FE, every active stack entry stays a return
address. -/
def Obligations.StepKeepsTheInvariant : Prop :=
  ∀ s t : State, s.Inv → step s = .next t → t.Inv

/-- The invariant holds at reset and at every launch. -/
def Obligations.ResetAndLaunchMeetTheInvariant : Prop :=
  State.reset.Inv ∧
  ∀ (ram : Memory) (font image : List Byte) (s : State), Memory.wf ram → State.launch ram font image = some s → s.Inv

/-- The frame rule (R12, decision D23): an instruction changes only the state its rule names, for all 34 of them. -/
def Obligations.InstructionsChangeOnlyTheirFootprint : Prop :=
  ∀ (i : Instr) (s t : State), exec i s = .next t → Frame (footprint s i) s t

/-- `VF` changes only by the six instructions that write it as a flag, or as the named destination of an instruction
(R21, R23). -/
def Obligations.FlagRegisterHasSixFlagWriters : Prop :=
  ∀ (i : Instr) (s t : State), exec i s = .next t → t.getV 15 ≠ s.getV 15 →
    (∃ x y, i = .addReg x y ∨ i = .subReg x y ∨ i = .shiftRight x y ∨ i = .subNegated x y ∨ i = .shiftLeft x y) ∨
    (∃ x y n, i = .draw x y n) ∨
    (∃ kk, i = .loadImm 15 kk ∨ i = .addImm 15 kk ∨ i = .random 15 kk) ∨
    (∃ y, i = .loadReg 15 y ∨ i = .orReg 15 y ∨ i = .andReg 15 y ∨ i = .xorReg 15 y) ∨
    i = .loadDelay 15 ∨ i = .loadKey 15 ∨ i = .loadRegisters 15

/-- R36: no step changes the framebuffer but a Clear or a Draw (reset, which is no instruction, clears it: R290); no
instruction but Draw depends on what it holds; and the read port returns the cell it addresses. -/
def Obligations.FramebufferIsForClearAndDraw : Prop :=
  (∀ s t : State, step s = .next t → t.fb ≠ s.fb →
    s.sampled.rst = true ∨ s.issued = some .clear ∨ ∃ x y n, s.issued = some (.draw x y n)) ∧
  (∀ (i : Instr) (s : State) (f : Framebuffer), (∀ x y n, i ≠ .draw x y n) →
    ∃ t u, exec i s = .next t ∧ exec i (s.setFb f) = .next u ∧ u.setFb t.fb = t) ∧
  (∀ (s : State) (row : Fin 32) (col : Fin 64),
    s.fbData (BitVec.ofNat 11 (row.val * 64 + col.val)) = cell s.fb row col)

/-- R37: the RAM is `Mem[0]` to `Mem[4095]`; no step changes a byte of it but a Store-BCD, a Store-registers, or the loader
while reset is held; and no instruction but Draw and Load-registers depends on it, beyond the fetch. -/
def Obligations.RamIsForItsFourInstructions : Prop :=
  (∀ (s : State) (c : Host.Cell), Memory.wf s.mem → c ∈ s.mem → c.1 ≤ 4095) ∧
  (∀ (s t : State) (a : Nat), step s = .next t → Memory.read t.mem a ≠ Memory.read s.mem a →
    (s.sampled.rst = true ∧ s.sampled.load ≠ none) ∨
    ∃ x, s.issued = some (.storeBcd x) ∨ s.issued = some (.storeRegisters x)) ∧
  (∀ (i : Instr) (s : State) (m : Memory), (∀ x y n, i ≠ .draw x y n) → (∀ x, i ≠ .loadRegisters x) →
    ∃ t u, exec i s = .next t ∧ exec i (s.setMem m) = .next u ∧ u.setMem t.mem = t)

/-- R31: `STK[j]` is written only by a Call, when `SP` goes from `j` to `j+1`; it is read only by a Return, when `SP` goes
from `j+1` to `j`; Return does not erase it. -/
def Obligations.StackIsForCallAndReturn : Prop :=
  (∀ (i : Instr) (s t : State) (j : Fin 16), exec i s = .next t → t.stk[j.val] ≠ s.stk[j.val] →
    (∃ nnn, i = .call nnn) ∧ s.sp.val = j.val ∧ t.sp.val = j.val + 1) ∧
  (∀ (i : Instr) (s : State) (j : Fin 16) (w : Word), i ≠ .ret ∨ s.sp.val ≠ j.val + 1 →
    ∃ t u, exec i s = .next t ∧ exec i { s with stk := s.stk.set j.val w } = .next u ∧
      { u with stk := t.stk } = t) ∧
  (∀ s t : State, exec .ret s = .next t → t.stk = s.stk)

/-- Each input for itself: the key snapshot reaches only the three key instructions, and the random byte only Random, nor does
it reach a key-poll step (R47, R121, R230, R236, R268). -/
def Obligations.InputsReachOnlyTheirInstructions : Prop :=
  (∀ (i : Instr) (s : State) (k : BitVec 16),
    (∀ x, i ≠ .skipIfPressed x ∧ i ≠ .skipIfNotPressed x ∧ i ≠ .loadKey x) →
    ∃ t, exec i s = .next t ∧ exec i { s with keys := k } = .next { t with keys := k }) ∧
  (∀ (i : Instr) (s : State) (b : Byte), (∀ x kk, i ≠ .random x kk) →
    ∃ t, exec i s = .next t ∧ exec i { s with rnd := b } = .next { t with rnd := b }) ∧
  (∀ (s : State) (x : Nibble) (b : Byte), State.poll { s with rnd := b } x = { s.poll x with rnd := b })

/-! ### Control flow (spec/41_control_flow.md) -/

/-- R141 Return: encoding `00EE`; an empty stack is StackUnderflow with nothing else changed; otherwise `pc <- STK[SP-1]`,
`SP <- SP-1`, no entry erased; the popped value is even and at most 4096 in a state that meets the invariant, and 4096
makes the next fetch a FetchBounds failure. -/
def Obligations.ReturnPopsThePc : Prop :=
  decode 0x00EE = .instr .ret ∧
  ∀ s : State,
    (s.sp.val = 0 → ∃ t, exec .ret s = .next t ∧ t.status = .faulted .stackUnderflow (s.pc - 2) 0 ∧
      Frame { status := true } s t) ∧
    (∀ j : Fin 16, s.sp.val = j.val + 1 →
      ∃ t, exec .ret s = .next t ∧ t.pc = s.stk[j.val] ∧ t.sp.val = j.val ∧
        Frame { pc := true, sp := true } s t ∧ (s.Inv → t.pc.toNat % 2 = 0 ∧ t.pc.toNat ≤ 4096)) ∧
    (s.StepEnabled → s.pc = 4096 → ∃ t, step s = .next t ∧ t.status = .faulted .fetchBounds 4096 4096)

/-- R142 Jump: encoding `1nnn`; `pc <- nnn`; an odd target is accepted and the next step raises PcMisaligned; a Jump to its
own address changes no state. -/
def Obligations.JumpSetsThePc : Prop :=
  ∀ (nnn : Addr12) (s : State),
    decode (0x1#4 ++ nnn) = .instr (.jump nnn) ∧
    (∃ t, exec (.jump nnn) s = .next t ∧ t.pc.toNat = nnn.toNat ∧ Frame { pc := true } s t ∧
      (nnn.toNat % 2 = 1 → t.StepEnabled →
        ∃ u, step t = .next u ∧ u.status = .faulted .pcMisaligned t.pc t.pc)) ∧
    (s.pc.toNat = nnn.toNat → exec (.jump nnn) s.advance = .next s)

/-- R143 Call: encoding `2nnn`; with 16 frames active StackOverflow and nothing else changed; otherwise the advanced `pc` is
pushed, `SP` grows by one and `pc <- nnn`. -/
def Obligations.CallPushesTheReturnAddress : Prop :=
  ∀ (nnn : Addr12) (s : State),
    decode (0x2#4 ++ nnn) = .instr (.call nnn) ∧
    (s.sp.val = 16 → ∃ t, exec (.call nnn) s = .next t ∧ t.status = .faulted .stackOverflow (s.pc - 2) 16 ∧
      Frame { status := true } s t) ∧
    (s.sp.val ≠ 16 → ∃ t, exec (.call nnn) s = .next t ∧ t.pc.toNat = nnn.toNat ∧
      t.sp.val = s.sp.val + 1 ∧ (∀ j : Fin 16, t.stk[j.val] = if j.val = s.sp.val then s.pc else s.stk[j.val]) ∧
      Frame { pc := true, sp := true, stk := true } s t)

/-- A Return that meets the stack as a Call left it resumes after the Call, with the depth and the frames below it as they
were (R143, R141). -/
def Obligations.ReturnResumesAfterItsCall : Prop :=
  ∀ (nnn : Addr12) (p : Word) (s : State), s.sp.val ≠ 16 →
    ∃ t u, exec (.call nnn) s = .next t ∧ exec .ret (t.setPc p) = .next u ∧ u.pc = s.pc ∧ u.sp = s.sp ∧
      ∀ j : Fin 16, j.val < s.sp.val → u.stk[j.val] = s.stk[j.val]

/-- Exactly 16 nested Calls succeed from an empty stack and the 17th is StackOverflow (R30, R143, R254; the frame count as
stack pointer is the spec's decision D5). -/
def Obligations.SixteenCallsNestAndNoMore : Prop :=
  ∀ (nnn : Addr12) (s : State), s.sp.val = 0 →
    (∀ k : Nat, k ≤ 16 → ∃ t, execAll (List.replicate k (.call nnn)) s = .next t ∧ t.sp.val = k ∧
      t.status = s.status) ∧
    ∃ t p, execAll (List.replicate 17 (.call nnn)) s = .next t ∧ t.sp.val = 16 ∧
      t.status = .faulted .stackOverflow p 16

/-- R144 Jump-indexed: encoding `Bnnn`; the sum with `V[0]` is exact, at most 0x10FE (no reduction: decision D11). -/
def Obligations.JumpIndexedAddsV0 : Prop :=
  ∀ (nnn : Addr12) (s : State),
    decode (0xB#4 ++ nnn) = .instr (.jumpIndexed nnn) ∧
    ∃ t, exec (.jumpIndexed nnn) s = .next t ∧ t.pc.toNat = nnn.toNat + (s.getV 0).toNat ∧
      t.pc.toNat ≤ 0x10FE ∧ Frame { pc := true } s t

/-- R145 to R148, the four register skips: encodings `3xkk`, `4xkk`, `5xy0`, `9xy0`; `pc` grows by 2 exactly when the
condition holds, and nothing else changes. Seen from a step (R149), a taken skip makes the next fetch address `pc0 + 4`
whatever word stands at `pc0 + 2`. -/
def Obligations.RegisterSkipsCompare : Prop :=
  ∀ (x y : Nibble) (kk : Byte) (s : State),
    (decode (0x3#4 ++ x ++ kk) = .instr (.skipEqImm x kk) ∧
      ∃ t, exec (.skipEqImm x kk) s = .next t ∧ Frame { pc := true } s t ∧
        t.pc = if s.getV x = kk then s.pc + 2 else s.pc) ∧
    (decode (0x4#4 ++ x ++ kk) = .instr (.skipNeqImm x kk) ∧
      ∃ t, exec (.skipNeqImm x kk) s = .next t ∧ Frame { pc := true } s t ∧
        t.pc = if s.getV x = kk then s.pc else s.pc + 2) ∧
    (decode (0x5#4 ++ x ++ y ++ 0x0#4) = .instr (.skipEqReg x y) ∧
      ∃ t, exec (.skipEqReg x y) s = .next t ∧ Frame { pc := true } s t ∧
        t.pc = if s.getV x = s.getV y then s.pc + 2 else s.pc) ∧
    (decode (0x9#4 ++ x ++ y ++ 0x0#4) = .instr (.skipNeqReg x y) ∧
      ∃ t, exec (.skipNeqReg x y) s = .next t ∧ Frame { pc := true } s t ∧
        t.pc = if s.getV x = s.getV y then s.pc else s.pc + 2)

/-- A taken skip, of all six (R145 to R149, R231, R232): the step completes with the next fetch address `pc0 + 4`, 4096 and 4098
included, whatever word stands at `pc0 + 2`, and nothing but `pc` changes. The snapshot is that of the step's boundary. -/
def Obligations.TakenSkipResumesFourOn : Prop :=
  ∀ (s : State) (x y : Nibble) (kk : Byte),
    (s.issued = some (.skipEqImm x kk) ∧ s.getV x = kk) ∨
    (s.issued = some (.skipNeqImm x kk) ∧ s.getV x ≠ kk) ∨
    (s.issued = some (.skipEqReg x y) ∧ s.getV x = s.getV y) ∨
    (s.issued = some (.skipNeqReg x y) ∧ s.getV x ≠ s.getV y) ∨
    (s.issued = some (.skipIfPressed x) ∧
      ∃ k : Fin 16, k.val = (s.getV x).toNat ∧ s.sampled.keys[k.val] = true) ∨
    (s.issued = some (.skipIfNotPressed x) ∧
      ∀ k : Fin 16, k.val = (s.getV x).toNat → s.sampled.keys[k.val] = false) →
    ∃ t, step s = .next t ∧ t.pc.toNat = s.pc.toNat + 4 ∧ t.pc.toNat ≤ 4098 ∧ t.status = .running ∧
      Frame { pc := true } s.stepStart t

/-! ### Loads, arithmetic, logic, shifts, random (spec/42_load_arith_logic.md) -/

/-- R161 Load-imm: encoding `6xkk`; `V[x] <- kk`, and no flag. -/
def Obligations.LoadImmWritesItsRegister : Prop :=
  ∀ (x : Nibble) (kk : Byte) (s : State),
    decode (0x6#4 ++ x ++ kk) = .instr (.loadImm x kk) ∧
    ∃ t, exec (.loadImm x kk) s = .next t ∧ t.getV x = kk ∧ Frame { regs := [x] } s t

/-- R162 Add-imm, R163 Load-reg, R172 Random: encodings `7xkk`, `8xy0`, `Cxkk`; the destination's new value, and no flag.
The random byte is whatever was latched for the step (decision D13). -/
def Obligations.AddImmLoadRegRandomWriteOneRegister : Prop :=
  ∀ (x y : Nibble) (kk : Byte) (s : State),
    (decode (0x7#4 ++ x ++ kk) = .instr (.addImm x kk) ∧
      ∃ t, exec (.addImm x kk) s = .next t ∧
        (t.getV x).toNat = ((s.getV x).toNat + kk.toNat) % 256 ∧ Frame { regs := [x] } s t) ∧
    (decode (0x8#4 ++ x ++ y ++ 0x0#4) = .instr (.loadReg x y) ∧
      ∃ t, exec (.loadReg x y) s = .next t ∧ t.getV x = s.getV y ∧ Frame { regs := [x] } s t) ∧
    (decode (0xC#4 ++ x ++ kk) = .instr (.random x kk) ∧
      ∃ t, exec (.random x kk) s = .next t ∧
        (∀ b : Nat, (t.getV x).getLsbD b = (s.rnd.getLsbD b && kk.getLsbD b)) ∧ Frame { regs := [x] } s t)

/-- R176: Or, And and Xor give `V[x]` the bitwise result (R164 to R166) and do not write the flag register: it changes only
when it is the destination. -/
def Obligations.LogicLeavesTheFlag : Prop :=
  ∀ (x y : Nibble) (s : State),
    (∃ t, exec (.orReg x y) s = .next t ∧
      (∀ b : Nat, (t.getV x).getLsbD b = ((s.getV x).getLsbD b || (s.getV y).getLsbD b)) ∧
      (x ≠ 15 → t.getV 15 = s.getV 15) ∧ Frame { regs := [x] } s t) ∧
    (∃ t, exec (.andReg x y) s = .next t ∧
      (∀ b : Nat, (t.getV x).getLsbD b = ((s.getV x).getLsbD b && (s.getV y).getLsbD b)) ∧
      (x ≠ 15 → t.getV 15 = s.getV 15) ∧ Frame { regs := [x] } s t) ∧
    (∃ t, exec (.xorReg x y) s = .next t ∧
      (∀ b : Nat, (t.getV x).getLsbD b = ((s.getV x).getLsbD b != (s.getV y).getLsbD b)) ∧
      (x ≠ 15 → t.getV 15 = s.getV 15) ∧ Frame { regs := [x] } s t)

/-- R167 Add-reg: encoding `8xy4`; the sum modulo 256, and the carry in `VF` unless `VF` is the destination, which keeps the
sum (the write order is the spec's decision D6, the byte values of the flag its decision D7). -/
def Obligations.AddRegSumsWithCarry : Prop :=
  ∀ (x y : Nibble) (s : State),
    decode (0x8#4 ++ x ++ y ++ 0x4#4) = .instr (.addReg x y) ∧
    ∃ t, exec (.addReg x y) s = .next t ∧
      (t.getV x).toNat = ((s.getV x).toNat + (s.getV y).toNat) % 256 ∧
      (x ≠ 15 → t.getV 15 = if (s.getV x).toNat + (s.getV y).toNat > 255 then 1 else 0) ∧
      Frame { regs := [x, 15] } s t

/-- R168 Sub-reg and R170 Sub-negated: encodings `8xy5`, `8xy7`; the difference modulo 256, and `VF` 1 exactly when the
minuend is strictly greater, unless `VF` is the destination (decisions D6, D7). -/
def Obligations.SubtractionsWrapWithStrictFlag : Prop :=
  ∀ (x y : Nibble) (s : State),
    (decode (0x8#4 ++ x ++ y ++ 0x5#4) = .instr (.subReg x y) ∧
      ∃ t, exec (.subReg x y) s = .next t ∧
        (t.getV x).toNat = ((s.getV x).toNat + 256 - (s.getV y).toNat) % 256 ∧
        (x ≠ 15 → t.getV 15 = if (s.getV x).toNat > (s.getV y).toNat then 1 else 0) ∧
        Frame { regs := [x, 15] } s t) ∧
    (decode (0x8#4 ++ x ++ y ++ 0x7#4) = .instr (.subNegated x y) ∧
      ∃ t, exec (.subNegated x y) s = .next t ∧
        (t.getV x).toNat = ((s.getV y).toNat + 256 - (s.getV x).toNat) % 256 ∧
        (x ≠ 15 → t.getV 15 = if (s.getV y).toNat > (s.getV x).toNat then 1 else 0) ∧
        Frame { regs := [x, 15] } s t)

/-- R169 Shift-right and R171 Shift-left: encodings `8xy6`, `8xyE`; one position, a 0 comes in, the bit shifted out goes to
`VF` unless `VF` is the destination (decisions D6, D7). -/
def Obligations.ShiftsMoveOneBitToTheFlag : Prop :=
  ∀ (x y : Nibble) (s : State),
    (decode (0x8#4 ++ x ++ y ++ 0x6#4) = .instr (.shiftRight x y) ∧
      ∃ t, exec (.shiftRight x y) s = .next t ∧ (t.getV x).toNat = (s.getV x).toNat / 2 ∧
        (x ≠ 15 → (t.getV 15).toNat = (s.getV x).toNat % 2) ∧ Frame { regs := [x, 15] } s t) ∧
    (decode (0x8#4 ++ x ++ y ++ 0xE#4) = .instr (.shiftLeft x y) ∧
      ∃ t, exec (.shiftLeft x y) s = .next t ∧ (t.getV x).toNat = (s.getV x).toNat * 2 % 256 ∧
        (x ≠ 15 → (t.getV 15).toNat = (s.getV x).toNat / 128) ∧ Frame { regs := [x, 15] } s t)

/-- R177: the shifts use one register. All sixteen values of the `y` field decode to the same instruction, with the same
effect, and what `V[y]` holds does not matter when it is not `V[x]`. -/
def Obligations.ShiftsUseOneRegister : Prop :=
  ∀ (w : Word) (x y z r : Nibble) (b : Byte) (s : State), r ≠ x →
    (decode w = .instr (.shiftRight x y) → decode (withFieldY w z) = .instr (.shiftRight x z)) ∧
    (decode w = .instr (.shiftLeft x y) → decode (withFieldY w z) = .instr (.shiftLeft x z)) ∧
    exec (.shiftRight x y) s = exec (.shiftRight x z) s ∧
    exec (.shiftLeft x y) s = exec (.shiftLeft x z) s ∧
    (∃ t u, exec (.shiftRight x y) s = .next t ∧ exec (.shiftRight x y) (s.setV r b) = .next u ∧
      u.getV x = t.getV x) ∧
    (∃ t u, exec (.shiftLeft x y) s = .next t ∧ exec (.shiftLeft x y) (s.setV r b) = .next u ∧
      u.getV x = t.getV x)

/-! ### Address register and memory (spec/43_index_memory.md) -/

/-- R191 Load-address: encoding `Annn`; `I` is the zero-extended address, a RAM address. -/
def Obligations.LoadAddressSetsI : Prop :=
  ∀ (nnn : Addr12) (s : State),
    decode (0xA#4 ++ nnn) = .instr (.loadAddress nnn) ∧
    ∃ t, exec (.loadAddress nnn) s = .next t ∧ t.i.toNat = nnn.toNat ∧ t.i.toNat ≤ 4095 ∧ Frame { i := true } s t

/-- R192 Add-to-index and R193 Load-font-address: encodings `Fx1E`, `Fx29`; modulo 65536 and no flag; the whole register
times 5. -/
def Obligations.AddToIndexAndFontAddressSetI : Prop :=
  ∀ (x : Nibble) (s : State),
    (decode (0xF#4 ++ x ++ 0x1E#8) = .instr (.addToIndex x) ∧
      ∃ t, exec (.addToIndex x) s = .next t ∧ t.i.toNat = (s.i.toNat + (s.getV x).toNat) % 65536 ∧
        Frame { i := true } s t) ∧
    (decode (0xF#4 ++ x ++ 0x29#8) = .instr (.loadFontAddress x) ∧
      ∃ t, exec (.loadFontAddress x) s = .next t ∧ t.i.toNat = (s.getV x).toNat * 5 ∧ Frame { i := true } s t)

/-- The bounds rule of the four instructions that access RAM through `I` (R65, R197, R256): an access whose last byte lies
beyond 4095 is BoundsFailure with the lowest out-of-range address recorded, and nothing else changes. That the check is
made once, before any effect, is the spec's decision D8. -/
def Obligations.OutOfRangeAccessIsBoundsFailure : Prop :=
  ∀ (x y n : Nibble) (s : State),
    (1 ≤ n.toNat → s.i.toNat + (n.toNat - 1) > 4095 →
      ∃ t info, exec (.draw x y n) s = .next t ∧ t.status = .faulted .boundsFailure (s.pc - 2) info ∧
        info.toNat = max s.i.toNat 4096 ∧ Frame { status := true } s t) ∧
    (s.i.toNat + 2 > 4095 →
      ∃ t info, exec (.storeBcd x) s = .next t ∧ t.status = .faulted .boundsFailure (s.pc - 2) info ∧
        info.toNat = max s.i.toNat 4096 ∧ Frame { status := true } s t) ∧
    (s.i.toNat + x.toNat > 4095 →
      (∃ t info, exec (.storeRegisters x) s = .next t ∧ t.status = .faulted .boundsFailure (s.pc - 2) info ∧
        info.toNat = max s.i.toNat 4096 ∧ Frame { status := true } s t) ∧
      ∃ t info, exec (.loadRegisters x) s = .next t ∧ t.status = .faulted .boundsFailure (s.pc - 2) info ∧
        info.toNat = max s.i.toNat 4096 ∧ Frame { status := true } s t)

/-- R194 Store-BCD: encoding `Fx33`; hundreds, tens and ones at `I`, `I+1`, `I+2`, each a digit, and every other byte of
RAM unchanged. -/
def Obligations.StoreBcdWritesThreeDigits : Prop :=
  ∀ (x : Nibble) (s : State), Memory.wf s.mem → s.i.toNat + 2 ≤ 4095 →
    decode (0xF#4 ++ x ++ 0x33#8) = .instr (.storeBcd x) ∧
    ∃ t, exec (.storeBcd x) s = .next t ∧
      (Memory.read t.mem s.i.toNat).toNat = (s.getV x).toNat / 100 ∧
      (Memory.read t.mem (s.i.toNat + 1)).toNat = (s.getV x).toNat % 100 / 10 ∧
      (Memory.read t.mem (s.i.toNat + 2)).toNat = (s.getV x).toNat % 10 ∧
      Frame { mem := [s.i.toNat, s.i.toNat + 1, s.i.toNat + 2] } s t

/-- R195 Store-registers: encoding `Fx55`; `V[0]` to `V[x]` at `I` to `I+x`, and every other byte of RAM unchanged. -/
def Obligations.StoreRegistersWritesARun : Prop :=
  ∀ (x : Nibble) (s : State), Memory.wf s.mem → s.i.toNat + x.toNat ≤ 4095 →
    decode (0xF#4 ++ x ++ 0x55#8) = .instr (.storeRegisters x) ∧
    ∃ t, exec (.storeRegisters x) s = .next t ∧
      (∀ j : Nibble, j.toNat ≤ x.toNat → Memory.read t.mem (s.i.toNat + j.toNat) = s.getV j) ∧
      Frame { mem := (List.range (x.toNat + 1)).map (s.i.toNat + ·) } s t

/-- R196 Load-registers: encoding `Fx65`; `V[0]` to `V[x]` from `I` to `I+x`, every register above `x` unchanged. -/
def Obligations.LoadRegistersReadsARun : Prop :=
  ∀ (x : Nibble) (s : State), s.i.toNat + x.toNat ≤ 4095 →
    decode (0xF#4 ++ x ++ 0x65#8) = .instr (.loadRegisters x) ∧
    ∃ t, exec (.loadRegisters x) s = .next t ∧
      (∀ j : Nibble, j.toNat ≤ x.toNat → t.getV j = Memory.read s.mem (s.i.toNat + j.toNat)) ∧
      (∀ j : Nibble, x.toNat < j.toNat → t.getV j = s.getV j) ∧ Frame { regs := regsThrough x } s t

/-- Saving and restoring registers (R199): a Load-registers after a Store-registers with the same `I` and `x` gives the
registers their saved values whatever they held in between; a Store-registers after a Load-registers leaves the RAM as it
was. -/
def Obligations.StoreAndLoadRegistersRoundTrip : Prop :=
  ∀ (x : Nibble) (s : State), Memory.wf s.mem → s.i.toNat + x.toNat ≤ 4095 →
    (∃ t, exec (.storeRegisters x) s = .next t ∧
      ∀ v : Vector Byte 16, ∃ u, exec (.loadRegisters x) (t.setAllV v) = .next u ∧
        ∀ j : Nibble, j.toNat ≤ x.toNat → u.getV j = s.getV j) ∧
    ∃ t u, exec (.loadRegisters x) s = .next t ∧ exec (.storeRegisters x) t = .next u ∧ u.mem = s.mem

/-- Instruction-fetch coherence (R78): a fetch at an address where two registers have just been stored by Store-registers reads
the word made of them, and a fetch at either address where two digits have just been stored by Store-BCD reads the word made
of the two digits. -/
def Obligations.StoredRegistersAreFetched : Prop :=
  (∀ (x j k : Nibble) (s : State), Memory.wf s.mem → s.i.toNat + x.toNat ≤ 4095 → k.toNat = j.toNat + 1 →
    k.toNat ≤ x.toNat →
    ∃ t, exec (.storeRegisters x) s = .next t ∧
      (t.setPc (s.i + BitVec.ofNat 16 j.toNat)).fetchWord.toNat = (s.getV j).toNat * 256 + (s.getV k).toNat) ∧
  (∀ (x : Nibble) (s : State), Memory.wf s.mem → s.i.toNat + 2 ≤ 4095 →
    ∃ t, exec (.storeBcd x) s = .next t ∧
      (t.setPc s.i).fetchWord.toNat = (s.getV x).toNat / 100 * 256 + (s.getV x).toNat % 100 / 10 ∧
      (t.setPc (s.i + 1)).fetchWord.toNat = (s.getV x).toNat % 100 / 10 * 256 + (s.getV x).toNat % 10)

/-! ### Display (spec/44_display.md) -/

/-- R211 Clear: encoding `00E0`; every cell becomes 0 whatever it was, `VF` and all else unchanged; on a clear framebuffer it
changes nothing, and `fb_dirty` pulses in either case. The pulse is R220, the spec's decision D17, and that it is a function of
the state before the step is the model's choice (notes/assumptions/13.md). -/
def Obligations.ClearEmptiesTheFramebuffer : Prop :=
  decode 0x00E0 = .instr .clear ∧
  ∀ s : State,
    (∃ t, exec .clear s = .next t ∧ (∀ row col, cell t.fb row col = false) ∧ Frame { fb := true } s t ∧
      ((∀ row col, cell s.fb row col = false) → t = s)) ∧
    (s.issued = some .clear → s.fbDirty = true)

/-- R214, R215, R216: a Draw inside the RAM flips exactly the cells that set sprite bits land on, most significant bit first
and both coordinates wrapping, whatever multiples of 64 and 32 the coordinates hold; `VF` becomes 1 exactly when one of
those cells was lit, else 0; nothing else changes. A count of 0 covers no cell and is inside the RAM whatever `I` holds
(R213); that it cannot fail is the spec's decision D8. `fb_dirty` pulses (R220, decision D17, as a function of the state before
the step: notes/assumptions/13.md). -/
def Obligations.DrawFlipsTheCoveredCells : Prop :=
  ∀ (x y n : Nibble) (s : State), n.toNat = 0 ∨ s.i.toNat + (n.toNat - 1) ≤ 4095 →
    decode (0xD#4 ++ x ++ y ++ n) = .instr (.draw x y n) ∧
    ∃ t, exec (.draw x y n) s = .next t ∧
      (∀ row col, s.spriteCovers (s.getV x) (s.getV y) n.toNat row col →
        cell t.fb row col = !cell s.fb row col) ∧
      (∀ row col, ¬s.spriteCovers (s.getV x) (s.getV y) n.toNat row col → cell t.fb row col = cell s.fb row col) ∧
      ((∃ row col, s.spriteCovers (s.getV x) (s.getV y) n.toNat row col ∧ cell s.fb row col = true) →
        t.getV 15 = 1) ∧
      (¬(∃ row col, s.spriteCovers (s.getV x) (s.getV y) n.toNat row col ∧ cell s.fb row col = true) →
        t.getV 15 = 0) ∧
      Frame { regs := [15], fb := true } s t ∧
      (∀ row col, s.spriteCovers (s.getV x) (s.getV y) n.toNat row col ↔
        s.spriteCovers (BitVec.ofNat 8 ((s.getV x).toNat % 64)) (BitVec.ofNat 8 ((s.getV y).toNat % 32)) n.toNat
          row col) ∧
      (s.issued = some (.draw x y n) → s.fbDirty = true)

/-- Draw is an involution on the framebuffer (R218, R219): drawing the same sprite again at the same coordinates restores it, and
the second flag is 1 exactly when a set bit first landed on an unlit cell. The first Draw rewrote `VF`; `b` is what `VF` is
given before the second one, and its two coordinate registers must hold what they held: with neither of them `VF`, every
`b` will do, the flag itself included. -/
def Obligations.DrawTwiceRestoresTheFramebuffer : Prop :=
  ∀ (x y n : Nibble) (s : State), n.toNat = 0 ∨ s.i.toNat + (n.toNat - 1) ≤ 4095 →
    ∃ t, exec (.draw x y n) s = .next t ∧ t.setV 15 (t.getV 15) = t ∧
      ∀ b : Byte, (t.setV 15 b).getV x = s.getV x → (t.setV 15 b).getV y = s.getV y →
        ∃ u, exec (.draw x y n) (t.setV 15 b) = .next u ∧ u.fb = s.fb ∧
          (u.getV 15 = 1 ↔
            ∃ row col, s.spriteCovers (s.getV x) (s.getV y) n.toNat row col ∧ cell s.fb row col = false)

/-! ### Keys and timers (spec/45_input_timers.md) -/

/-- R231 Skip-if-pressed and R232 Skip-if-not-pressed: encodings `Ex9E`, `ExA1`; the test is membership of the register's
whole byte in the key snapshot, so a value above 15 names no key (R233), and nothing but `pc` changes. -/
def Obligations.KeySkipsTestTheWholeByte : Prop :=
  ∀ (x : Nibble) (s : State),
    (decode (0xE#4 ++ x ++ 0x9E#8) = .instr (.skipIfPressed x) ∧
      ∃ t, exec (.skipIfPressed x) s = .next t ∧ Frame { pc := true } s t ∧
        (∀ k : Fin 16, k.val = (s.getV x).toNat → t.pc = if s.keys[k.val] then s.pc + 2 else s.pc) ∧
        ((s.getV x).toNat > 15 → t.pc = s.pc)) ∧
    (decode (0xE#4 ++ x ++ 0xA1#8) = .instr (.skipIfNotPressed x) ∧
      ∃ t, exec (.skipIfNotPressed x) s = .next t ∧ Frame { pc := true } s t ∧
        (∀ k : Fin 16, k.val = (s.getV x).toNat → t.pc = if s.keys[k.val] then s.pc else s.pc + 2) ∧
        ((s.getV x).toNat > 15 → t.pc = s.pc + 2))

/-- R235 Load-key: encoding `Fx0A`; with no key pressed the core waits, `pc` already advanced and no register written; with
a key pressed it completes at once. That the register takes the lowest-numbered key, and the distinct waiting state, are
the spec's decision D12. -/
def Obligations.LoadKeyWaitsOrCompletes : Prop :=
  ∀ (x : Nibble) (s : State),
    decode (0xF#4 ++ x ++ 0x0A#8) = .instr (.loadKey x) ∧
    ((∀ k : Fin 16, s.keys[k.val] = false) →
      ∃ t, exec (.loadKey x) s = .next t ∧ t.status = .awaitKey x ∧ Frame { status := true } s t) ∧
    ∀ k : Fin 16, s.keys[k.val] = true → (∀ j : Fin 16, j < k → s.keys[j.val] = false) →
      ∃ t, exec (.loadKey x) s = .next t ∧ (t.getV x).toNat = k.val ∧ Frame { regs := [x] } s t

/-- The key-poll step (R128, R236, R239, decision D12): a waiting core permitted to step looks at the snapshot of this boundary;
with no key pressed nothing changes but the boundary and its ticks, with one pressed the awaited register takes the lowest
and the core runs again. `pc` is not touched in either case. -/
def Obligations.KeyPollEndsTheWait : Prop :=
  ∀ (x : Nibble) (s : State), s.status = .awaitKey x → s.sampled.rst = false → s.sampled.run = true →
    ((∀ k : Fin 16, s.sampled.keys[k.val] = false) →
      ∃ t, step s = .next t ∧ t.status = .awaitKey x ∧ t.pc = s.pc ∧ Frame {} s.stepStart t) ∧
    ∀ k : Fin 16, s.sampled.keys[k.val] = true → (∀ j : Fin 16, j < k → s.sampled.keys[j.val] = false) →
      ∃ t, step s = .next t ∧ t.status = .running ∧ t.pc = s.pc ∧ (t.getV x).toNat = k.val ∧
        Frame { regs := [x], status := true } s.stepStart t

/-- R234 Load-delay, R237 Set-delay, R238 Set-sound: encodings `Fx07`, `Fx15`, `Fx18`; the value moved, with `tone` on at once
exactly when the sound timer is given a value other than 0, and nothing else changed. -/
def Obligations.TimerInstructionsMoveBytes : Prop :=
  ∀ (x : Nibble) (s : State),
    (decode (0xF#4 ++ x ++ 0x07#8) = .instr (.loadDelay x) ∧
      ∃ t, exec (.loadDelay x) s = .next t ∧ t.getV x = s.dt ∧ Frame { regs := [x] } s t) ∧
    (decode (0xF#4 ++ x ++ 0x15#8) = .instr (.setDelay x) ∧
      ∃ t, exec (.setDelay x) s = .next t ∧ t.dt = s.getV x ∧ Frame { dt := true } s t) ∧
    (decode (0xF#4 ++ x ++ 0x18#8) = .instr (.setSound x) ∧
      ∃ t, exec (.setSound x) s = .next t ∧ t.st = s.getV x ∧ (t.tone = true ↔ s.getV x ≠ 0) ∧
        Frame { st := true } s t)
end

