-- ==== Sys2Proof/Laws/Decode.lean ====
section
/-! SUPPORT. The arithmetic of instruction words: what concatenated fields are worth, and what each field extraction gives of
such a word. Proofs about `decode` and `encode` use these and never open a bit. -/

namespace Sys2Proof

/-- A concatenation as a number. -/
theorem toNat_append_eq {m n : Nat} (a : BitVec m) (b : BitVec n) :
    (a ++ b).toNat = a.toNat * 2 ^ n + b.toNat := by
  rw [BitVec.toNat_append, ← Nat.shiftLeft_add_eq_or_of_lt b.isLt, Nat.shiftLeft_eq]

theorem toNat_wordA (p : Nibble) (a : Addr12) : BitVec.toNat (w := 16) (p ++ a) = p.toNat * 4096 + a.toNat :=
  toNat_append_eq p a

theorem toNat_wordXK (p x : Nibble) (k : Byte) :
    BitVec.toNat (w := 16) (p ++ x ++ k) = p.toNat * 4096 + x.toNat * 256 + k.toNat := by
  refine (toNat_append_eq (p ++ x) k).trans ?_
  rw [toNat_append_eq p x]
  omega

theorem toNat_wordXYN (p x y n : Nibble) :
    BitVec.toNat (w := 16) (p ++ x ++ y ++ n) = p.toNat * 4096 + x.toNat * 256 + y.toNat * 16 + n.toNat := by
  refine (toNat_append_eq (p ++ x ++ y) n).trans ?_
  rw [toNat_append_eq (p ++ x) y, toNat_append_eq p x]
  omega

theorem toNat_wordOfBytes (hi lo : Byte) : (wordOfBytes hi lo).toNat = hi.toNat * 256 + lo.toNat :=
  toNat_append_eq hi lo

theorem toNat_fieldOp (w : Word) : (fieldOp w).toNat = w.toNat / 4096 := by
  have := w.isLt
  simp only [fieldOp, BitVec.extractLsb'_toNat, Nat.shiftRight_eq_div_pow]
  omega

theorem toNat_fieldX (w : Word) : (fieldX w).toNat = w.toNat / 256 % 16 := by
  simp only [fieldX, BitVec.extractLsb'_toNat, Nat.shiftRight_eq_div_pow]

theorem toNat_fieldY (w : Word) : (fieldY w).toNat = w.toNat / 16 % 16 := by
  simp only [fieldY, BitVec.extractLsb'_toNat, Nat.shiftRight_eq_div_pow]

theorem toNat_fieldN (w : Word) : (fieldN w).toNat = w.toNat % 16 := by
  simp only [fieldN, BitVec.extractLsb'_toNat, Nat.shiftRight_zero]

theorem toNat_fieldKk (w : Word) : (fieldKk w).toNat = w.toNat % 256 := by
  simp only [fieldKk, BitVec.extractLsb'_toNat, Nat.shiftRight_zero]

theorem toNat_fieldNnn (w : Word) : (fieldNnn w).toNat = w.toNat % 4096 := by
  simp only [fieldNnn, BitVec.extractLsb'_toNat, Nat.shiftRight_zero]

section fields

variable (p x y n : Nibble) (k : Byte) (a : Addr12)

theorem fieldOp_wordA : fieldOp (p ++ a) = p := by
  apply BitVec.eq_of_toNat_eq
  rw [toNat_fieldOp, toNat_wordA]
  have := a.isLt
  omega

theorem fieldNnn_wordA : fieldNnn (p ++ a) = a := by
  apply BitVec.eq_of_toNat_eq
  rw [toNat_fieldNnn, toNat_wordA]
  have := a.isLt
  omega

theorem fieldOp_wordXK : fieldOp (p ++ x ++ k) = p := by
  apply BitVec.eq_of_toNat_eq
  rw [toNat_fieldOp, toNat_wordXK]
  have := x.isLt
  have := k.isLt
  omega

theorem fieldX_wordXK : fieldX (p ++ x ++ k) = x := by
  apply BitVec.eq_of_toNat_eq
  rw [toNat_fieldX, toNat_wordXK]
  have := x.isLt
  have := k.isLt
  omega

theorem fieldKk_wordXK : fieldKk (p ++ x ++ k) = k := by
  apply BitVec.eq_of_toNat_eq
  rw [toNat_fieldKk, toNat_wordXK]
  have := k.isLt
  omega

theorem fieldOp_wordXYN : fieldOp (p ++ x ++ y ++ n) = p := by
  apply BitVec.eq_of_toNat_eq
  rw [toNat_fieldOp, toNat_wordXYN]
  have := x.isLt
  have := y.isLt
  have := n.isLt
  omega

theorem fieldX_wordXYN : fieldX (p ++ x ++ y ++ n) = x := by
  apply BitVec.eq_of_toNat_eq
  rw [toNat_fieldX, toNat_wordXYN]
  have := x.isLt
  have := y.isLt
  have := n.isLt
  omega

theorem fieldY_wordXYN : fieldY (p ++ x ++ y ++ n) = y := by
  apply BitVec.eq_of_toNat_eq
  rw [toNat_fieldY, toNat_wordXYN]
  have := y.isLt
  have := n.isLt
  omega

theorem fieldN_wordXYN : fieldN (p ++ x ++ y ++ n) = n := by
  apply BitVec.eq_of_toNat_eq
  rw [toNat_fieldN, toNat_wordXYN]
  have := n.isLt
  omega

end fields

/-- A word is its group nibble and its address field. -/
theorem word_eq_wordA (w : Word) : fieldOp w ++ fieldNnn w = w := by
  apply BitVec.eq_of_toNat_eq
  rw [toNat_wordA, toNat_fieldOp, toNat_fieldNnn]
  omega

/-- A word is its group nibble, its `x` field and its byte field. -/
theorem word_eq_wordXK (w : Word) : fieldOp w ++ fieldX w ++ fieldKk w = w := by
  apply BitVec.eq_of_toNat_eq
  rw [toNat_wordXK, toNat_fieldOp, toNat_fieldX, toNat_fieldKk]
  omega

/-- A word is its four nibbles. -/
theorem word_eq_wordXYN (w : Word) : fieldOp w ++ fieldX w ++ fieldY w ++ fieldN w = w := by
  apply BitVec.eq_of_toNat_eq
  rw [toNat_wordXYN, toNat_fieldOp, toNat_fieldX, toNat_fieldY, toNat_fieldN]
  omega

/-- Splitting a word into its two bytes and putting them back. -/
@[simp] theorem wordOfBytes_hi_lo (w : Word) : wordOfBytes (wordHi w) (wordLo w) = w := by
  apply BitVec.eq_of_toNat_eq
  have := w.isLt
  rw [toNat_wordOfBytes]
  simp only [wordHi, wordLo, BitVec.extractLsb'_toNat, Nat.shiftRight_eq_div_pow]
  omega

/-- The decoder on two bytes and a rest is the decoder on their word. -/
theorem decodeBytes_cons_cons (hi lo : Byte) (rest : List Byte) :
    decodeBytes (hi :: lo :: rest) =
      match decode (wordOfBytes hi lo) with
      | .instr i => .instr i rest
      | .decodeFailure => .decodeFailure (wordOfBytes hi lo) := rfl

/-! ### The rows of the opcode map in terms of fields -/

theorem and_append_append {m n : Nat} (a c : BitVec m) (b d : BitVec n) :
    (a ++ b) &&& (c ++ d) = (a &&& c) ++ (b &&& d) := by
  ext i h
  simp only [BitVec.getElem_and, BitVec.getElem_append]
  split <;> rfl

/-- A row with mask 0xF000 accepts a word by its group nibble. -/
theorem accepts_F000 (w : Word) (c : Nibble) :
    OpcodeRow.accepts ⟨0xF000, c ++ (0#12)⟩ w = true ↔ fieldOp w = c := by
  have h : w &&& 0xF000 = fieldOp w ++ (0#12) := by
    conv_lhs => rw [← word_eq_wordA w]
    refine (and_append_append (fieldOp w) (0xF#4) (fieldNnn w) (0#12)).trans ?_
    rw [BitVec.and_zero, show (0xF#4) = BitVec.allOnes 4 from rfl, BitVec.and_allOnes]
  simp only [OpcodeRow.accepts, beq_iff_eq, h]
  refine ⟨fun e => ?_, fun e => by rw [e]⟩
  rw [← fieldOp_wordA (fieldOp w) (0#12), e, fieldOp_wordA]

/-- A row with mask 0xF00F accepts a word by its group nibble and its low nibble. -/
theorem accepts_F00F (w : Word) (c d : Nibble) :
    OpcodeRow.accepts ⟨0xF00F, c ++ (0#4) ++ (0#4) ++ d⟩ w = true ↔ fieldOp w = c ∧ fieldN w = d := by
  have h : w &&& 0xF00F = fieldOp w ++ (0#4) ++ (0#4) ++ fieldN w := by
    conv_lhs => rw [← word_eq_wordXYN w]
    refine (and_append_append (fieldOp w ++ fieldX w ++ fieldY w) (0xF00#12) (fieldN w) (0xF#4)).trans ?_
    rw [show (0xF#4) = BitVec.allOnes 4 from rfl, BitVec.and_allOnes]
    refine congrArg (· ++ fieldN w) ?_
    refine (and_append_append (fieldOp w ++ fieldX w) (0xF0#8) (fieldY w) (0#4)).trans ?_
    rw [BitVec.and_zero]
    refine congrArg (· ++ (0#4)) ?_
    refine (and_append_append (fieldOp w) (0xF#4) (fieldX w) (0#4)).trans ?_
    rw [BitVec.and_zero, show (0xF#4) = BitVec.allOnes 4 from rfl, BitVec.and_allOnes]
  simp only [OpcodeRow.accepts, beq_iff_eq, h]
  refine ⟨fun e => ⟨?_, ?_⟩, fun e => by rw [e.1, e.2]⟩
  · rw [← fieldOp_wordXYN (fieldOp w) 0 0 (fieldN w)]
    exact (congrArg fieldOp e).trans (fieldOp_wordXYN c 0 0 d)
  · rw [← fieldN_wordXYN (fieldOp w) 0 0 (fieldN w)]
    exact (congrArg fieldN e).trans (fieldN_wordXYN c 0 0 d)

/-- A row with mask 0xF0FF accepts a word by its group nibble and its low byte. -/
theorem accepts_F0FF (w : Word) (c : Nibble) (k : Byte) :
    OpcodeRow.accepts ⟨0xF0FF, c ++ (0#4) ++ k⟩ w = true ↔ fieldOp w = c ∧ fieldKk w = k := by
  have h : w &&& 0xF0FF = fieldOp w ++ (0#4) ++ fieldKk w := by
    conv_lhs => rw [← word_eq_wordXK w]
    refine (and_append_append (fieldOp w ++ fieldX w) (0xF0#8) (fieldKk w) (0xFF#8)).trans ?_
    rw [show (0xFF#8) = BitVec.allOnes 8 from rfl, BitVec.and_allOnes]
    refine congrArg (· ++ fieldKk w) ?_
    refine (and_append_append (fieldOp w) (0xF#4) (fieldX w) (0#4)).trans ?_
    rw [BitVec.and_zero, show (0xF#4) = BitVec.allOnes 4 from rfl, BitVec.and_allOnes]
  simp only [OpcodeRow.accepts, beq_iff_eq, h]
  refine ⟨fun e => ⟨?_, ?_⟩, fun e => by rw [e.1, e.2]⟩
  · rw [← fieldOp_wordXK (fieldOp w) 0 (fieldKk w)]
    exact (congrArg fieldOp e).trans (fieldOp_wordXK c 0 k)
  · rw [← fieldKk_wordXK (fieldOp w) 0 (fieldKk w)]
    exact (congrArg fieldKk e).trans (fieldKk_wordXK c 0 k)

/-- A row with mask 0xFFFF accepts one word. -/
theorem accepts_FFFF (w m : Word) : OpcodeRow.accepts ⟨0xFFFF, m⟩ w = true ↔ w = m := by
  simp only [OpcodeRow.accepts, beq_iff_eq, show (0xFFFF : Word) = BitVec.allOnes 16 from rfl, BitVec.and_allOnes]

end Sys2Proof
end

