-- ==== Sys2Proof/Laws/State.lean ====
section
/-! SUPPORT. The effect of every state update on every field, one lemma each, true by unfolding the update once; later proofs
rewrite with these and never unfold an update. -/

namespace Sys2Proof.Machine

@[simp] theorem State.setV_v (s : State) (x : Nibble) (b : Byte) : (s.setV x b).v = s.v.set x.toNat b x.isLt := rfl
@[simp] theorem State.setV_i (s : State) (x : Nibble) (b : Byte) : (s.setV x b).i = s.i := rfl
@[simp] theorem State.setV_pc (s : State) (x : Nibble) (b : Byte) : (s.setV x b).pc = s.pc := rfl
@[simp] theorem State.setV_sp (s : State) (x : Nibble) (b : Byte) : (s.setV x b).sp = s.sp := rfl
@[simp] theorem State.setV_stk (s : State) (x : Nibble) (b : Byte) : (s.setV x b).stk = s.stk := rfl
@[simp] theorem State.setV_dt (s : State) (x : Nibble) (b : Byte) : (s.setV x b).dt = s.dt := rfl
@[simp] theorem State.setV_st (s : State) (x : Nibble) (b : Byte) : (s.setV x b).st = s.st := rfl
@[simp] theorem State.setV_mem (s : State) (x : Nibble) (b : Byte) : (s.setV x b).mem = s.mem := rfl
@[simp] theorem State.setV_fb (s : State) (x : Nibble) (b : Byte) : (s.setV x b).fb = s.fb := rfl
@[simp] theorem State.setV_status (s : State) (x : Nibble) (b : Byte) : (s.setV x b).status = s.status := rfl
@[simp] theorem State.setV_keys (s : State) (x : Nibble) (b : Byte) : (s.setV x b).keys = s.keys := rfl
@[simp] theorem State.setV_rnd (s : State) (x : Nibble) (b : Byte) : (s.setV x b).rnd = s.rnd := rfl
@[simp] theorem State.setV_inputs (s : State) (x : Nibble) (b : Byte) : (s.setV x b).inputs = s.inputs := rfl
@[simp] theorem State.setV_boundary (s : State) (x : Nibble) (b : Byte) : (s.setV x b).boundary = s.boundary := rfl

@[simp] theorem State.setAllV_v (s : State) (v : Vector Byte 16) : (s.setAllV v).v = v := rfl
@[simp] theorem State.setAllV_i (s : State) (v : Vector Byte 16) : (s.setAllV v).i = s.i := rfl
@[simp] theorem State.setAllV_pc (s : State) (v : Vector Byte 16) : (s.setAllV v).pc = s.pc := rfl
@[simp] theorem State.setAllV_sp (s : State) (v : Vector Byte 16) : (s.setAllV v).sp = s.sp := rfl
@[simp] theorem State.setAllV_stk (s : State) (v : Vector Byte 16) : (s.setAllV v).stk = s.stk := rfl
@[simp] theorem State.setAllV_dt (s : State) (v : Vector Byte 16) : (s.setAllV v).dt = s.dt := rfl
@[simp] theorem State.setAllV_st (s : State) (v : Vector Byte 16) : (s.setAllV v).st = s.st := rfl
@[simp] theorem State.setAllV_mem (s : State) (v : Vector Byte 16) : (s.setAllV v).mem = s.mem := rfl
@[simp] theorem State.setAllV_fb (s : State) (v : Vector Byte 16) : (s.setAllV v).fb = s.fb := rfl
@[simp] theorem State.setAllV_status (s : State) (v : Vector Byte 16) : (s.setAllV v).status = s.status := rfl
@[simp] theorem State.setAllV_keys (s : State) (v : Vector Byte 16) : (s.setAllV v).keys = s.keys := rfl
@[simp] theorem State.setAllV_rnd (s : State) (v : Vector Byte 16) : (s.setAllV v).rnd = s.rnd := rfl
@[simp] theorem State.setAllV_inputs (s : State) (v : Vector Byte 16) : (s.setAllV v).inputs = s.inputs := rfl
@[simp] theorem State.setAllV_boundary (s : State) (v : Vector Byte 16) : (s.setAllV v).boundary = s.boundary := rfl

@[simp] theorem State.setI_v (s : State) (w : Word) : (s.setI w).v = s.v := rfl
@[simp] theorem State.setI_i (s : State) (w : Word) : (s.setI w).i = w := rfl
@[simp] theorem State.setI_pc (s : State) (w : Word) : (s.setI w).pc = s.pc := rfl
@[simp] theorem State.setI_sp (s : State) (w : Word) : (s.setI w).sp = s.sp := rfl
@[simp] theorem State.setI_stk (s : State) (w : Word) : (s.setI w).stk = s.stk := rfl
@[simp] theorem State.setI_dt (s : State) (w : Word) : (s.setI w).dt = s.dt := rfl
@[simp] theorem State.setI_st (s : State) (w : Word) : (s.setI w).st = s.st := rfl
@[simp] theorem State.setI_mem (s : State) (w : Word) : (s.setI w).mem = s.mem := rfl
@[simp] theorem State.setI_fb (s : State) (w : Word) : (s.setI w).fb = s.fb := rfl
@[simp] theorem State.setI_status (s : State) (w : Word) : (s.setI w).status = s.status := rfl
@[simp] theorem State.setI_keys (s : State) (w : Word) : (s.setI w).keys = s.keys := rfl
@[simp] theorem State.setI_rnd (s : State) (w : Word) : (s.setI w).rnd = s.rnd := rfl
@[simp] theorem State.setI_inputs (s : State) (w : Word) : (s.setI w).inputs = s.inputs := rfl
@[simp] theorem State.setI_boundary (s : State) (w : Word) : (s.setI w).boundary = s.boundary := rfl

@[simp] theorem State.setPc_v (s : State) (w : Word) : (s.setPc w).v = s.v := rfl
@[simp] theorem State.setPc_i (s : State) (w : Word) : (s.setPc w).i = s.i := rfl
@[simp] theorem State.setPc_pc (s : State) (w : Word) : (s.setPc w).pc = w := rfl
@[simp] theorem State.setPc_sp (s : State) (w : Word) : (s.setPc w).sp = s.sp := rfl
@[simp] theorem State.setPc_stk (s : State) (w : Word) : (s.setPc w).stk = s.stk := rfl
@[simp] theorem State.setPc_dt (s : State) (w : Word) : (s.setPc w).dt = s.dt := rfl
@[simp] theorem State.setPc_st (s : State) (w : Word) : (s.setPc w).st = s.st := rfl
@[simp] theorem State.setPc_mem (s : State) (w : Word) : (s.setPc w).mem = s.mem := rfl
@[simp] theorem State.setPc_fb (s : State) (w : Word) : (s.setPc w).fb = s.fb := rfl
@[simp] theorem State.setPc_status (s : State) (w : Word) : (s.setPc w).status = s.status := rfl
@[simp] theorem State.setPc_keys (s : State) (w : Word) : (s.setPc w).keys = s.keys := rfl
@[simp] theorem State.setPc_rnd (s : State) (w : Word) : (s.setPc w).rnd = s.rnd := rfl
@[simp] theorem State.setPc_inputs (s : State) (w : Word) : (s.setPc w).inputs = s.inputs := rfl
@[simp] theorem State.setPc_boundary (s : State) (w : Word) : (s.setPc w).boundary = s.boundary := rfl

@[simp] theorem State.setDt_v (s : State) (b : Byte) : (s.setDt b).v = s.v := rfl
@[simp] theorem State.setDt_i (s : State) (b : Byte) : (s.setDt b).i = s.i := rfl
@[simp] theorem State.setDt_pc (s : State) (b : Byte) : (s.setDt b).pc = s.pc := rfl
@[simp] theorem State.setDt_sp (s : State) (b : Byte) : (s.setDt b).sp = s.sp := rfl
@[simp] theorem State.setDt_stk (s : State) (b : Byte) : (s.setDt b).stk = s.stk := rfl
@[simp] theorem State.setDt_dt (s : State) (b : Byte) : (s.setDt b).dt = b := rfl
@[simp] theorem State.setDt_st (s : State) (b : Byte) : (s.setDt b).st = s.st := rfl
@[simp] theorem State.setDt_mem (s : State) (b : Byte) : (s.setDt b).mem = s.mem := rfl
@[simp] theorem State.setDt_fb (s : State) (b : Byte) : (s.setDt b).fb = s.fb := rfl
@[simp] theorem State.setDt_status (s : State) (b : Byte) : (s.setDt b).status = s.status := rfl
@[simp] theorem State.setDt_keys (s : State) (b : Byte) : (s.setDt b).keys = s.keys := rfl
@[simp] theorem State.setDt_rnd (s : State) (b : Byte) : (s.setDt b).rnd = s.rnd := rfl
@[simp] theorem State.setDt_inputs (s : State) (b : Byte) : (s.setDt b).inputs = s.inputs := rfl
@[simp] theorem State.setDt_boundary (s : State) (b : Byte) : (s.setDt b).boundary = s.boundary := rfl

@[simp] theorem State.setSt_v (s : State) (b : Byte) : (s.setSt b).v = s.v := rfl
@[simp] theorem State.setSt_i (s : State) (b : Byte) : (s.setSt b).i = s.i := rfl
@[simp] theorem State.setSt_pc (s : State) (b : Byte) : (s.setSt b).pc = s.pc := rfl
@[simp] theorem State.setSt_sp (s : State) (b : Byte) : (s.setSt b).sp = s.sp := rfl
@[simp] theorem State.setSt_stk (s : State) (b : Byte) : (s.setSt b).stk = s.stk := rfl
@[simp] theorem State.setSt_dt (s : State) (b : Byte) : (s.setSt b).dt = s.dt := rfl
@[simp] theorem State.setSt_st (s : State) (b : Byte) : (s.setSt b).st = b := rfl
@[simp] theorem State.setSt_mem (s : State) (b : Byte) : (s.setSt b).mem = s.mem := rfl
@[simp] theorem State.setSt_fb (s : State) (b : Byte) : (s.setSt b).fb = s.fb := rfl
@[simp] theorem State.setSt_status (s : State) (b : Byte) : (s.setSt b).status = s.status := rfl
@[simp] theorem State.setSt_keys (s : State) (b : Byte) : (s.setSt b).keys = s.keys := rfl
@[simp] theorem State.setSt_rnd (s : State) (b : Byte) : (s.setSt b).rnd = s.rnd := rfl
@[simp] theorem State.setSt_inputs (s : State) (b : Byte) : (s.setSt b).inputs = s.inputs := rfl
@[simp] theorem State.setSt_boundary (s : State) (b : Byte) : (s.setSt b).boundary = s.boundary := rfl

@[simp] theorem State.setMem_v (s : State) (m : Memory) : (s.setMem m).v = s.v := rfl
@[simp] theorem State.setMem_i (s : State) (m : Memory) : (s.setMem m).i = s.i := rfl
@[simp] theorem State.setMem_pc (s : State) (m : Memory) : (s.setMem m).pc = s.pc := rfl
@[simp] theorem State.setMem_sp (s : State) (m : Memory) : (s.setMem m).sp = s.sp := rfl
@[simp] theorem State.setMem_stk (s : State) (m : Memory) : (s.setMem m).stk = s.stk := rfl
@[simp] theorem State.setMem_dt (s : State) (m : Memory) : (s.setMem m).dt = s.dt := rfl
@[simp] theorem State.setMem_st (s : State) (m : Memory) : (s.setMem m).st = s.st := rfl
@[simp] theorem State.setMem_mem (s : State) (m : Memory) : (s.setMem m).mem = m := rfl
@[simp] theorem State.setMem_fb (s : State) (m : Memory) : (s.setMem m).fb = s.fb := rfl
@[simp] theorem State.setMem_status (s : State) (m : Memory) : (s.setMem m).status = s.status := rfl
@[simp] theorem State.setMem_keys (s : State) (m : Memory) : (s.setMem m).keys = s.keys := rfl
@[simp] theorem State.setMem_rnd (s : State) (m : Memory) : (s.setMem m).rnd = s.rnd := rfl
@[simp] theorem State.setMem_inputs (s : State) (m : Memory) : (s.setMem m).inputs = s.inputs := rfl
@[simp] theorem State.setMem_boundary (s : State) (m : Memory) : (s.setMem m).boundary = s.boundary := rfl

@[simp] theorem State.setFb_v (s : State) (f : Framebuffer) : (s.setFb f).v = s.v := rfl
@[simp] theorem State.setFb_i (s : State) (f : Framebuffer) : (s.setFb f).i = s.i := rfl
@[simp] theorem State.setFb_pc (s : State) (f : Framebuffer) : (s.setFb f).pc = s.pc := rfl
@[simp] theorem State.setFb_sp (s : State) (f : Framebuffer) : (s.setFb f).sp = s.sp := rfl
@[simp] theorem State.setFb_stk (s : State) (f : Framebuffer) : (s.setFb f).stk = s.stk := rfl
@[simp] theorem State.setFb_dt (s : State) (f : Framebuffer) : (s.setFb f).dt = s.dt := rfl
@[simp] theorem State.setFb_st (s : State) (f : Framebuffer) : (s.setFb f).st = s.st := rfl
@[simp] theorem State.setFb_mem (s : State) (f : Framebuffer) : (s.setFb f).mem = s.mem := rfl
@[simp] theorem State.setFb_fb (s : State) (f : Framebuffer) : (s.setFb f).fb = f := rfl
@[simp] theorem State.setFb_status (s : State) (f : Framebuffer) : (s.setFb f).status = s.status := rfl
@[simp] theorem State.setFb_keys (s : State) (f : Framebuffer) : (s.setFb f).keys = s.keys := rfl
@[simp] theorem State.setFb_rnd (s : State) (f : Framebuffer) : (s.setFb f).rnd = s.rnd := rfl
@[simp] theorem State.setFb_inputs (s : State) (f : Framebuffer) : (s.setFb f).inputs = s.inputs := rfl
@[simp] theorem State.setFb_boundary (s : State) (f : Framebuffer) : (s.setFb f).boundary = s.boundary := rfl

@[simp] theorem State.setStatus_v (s : State) (x : Status) : (s.setStatus x).v = s.v := rfl
@[simp] theorem State.setStatus_i (s : State) (x : Status) : (s.setStatus x).i = s.i := rfl
@[simp] theorem State.setStatus_pc (s : State) (x : Status) : (s.setStatus x).pc = s.pc := rfl
@[simp] theorem State.setStatus_sp (s : State) (x : Status) : (s.setStatus x).sp = s.sp := rfl
@[simp] theorem State.setStatus_stk (s : State) (x : Status) : (s.setStatus x).stk = s.stk := rfl
@[simp] theorem State.setStatus_dt (s : State) (x : Status) : (s.setStatus x).dt = s.dt := rfl
@[simp] theorem State.setStatus_st (s : State) (x : Status) : (s.setStatus x).st = s.st := rfl
@[simp] theorem State.setStatus_mem (s : State) (x : Status) : (s.setStatus x).mem = s.mem := rfl
@[simp] theorem State.setStatus_fb (s : State) (x : Status) : (s.setStatus x).fb = s.fb := rfl
@[simp] theorem State.setStatus_status (s : State) (x : Status) : (s.setStatus x).status = x := rfl
@[simp] theorem State.setStatus_keys (s : State) (x : Status) : (s.setStatus x).keys = s.keys := rfl
@[simp] theorem State.setStatus_rnd (s : State) (x : Status) : (s.setStatus x).rnd = s.rnd := rfl
@[simp] theorem State.setStatus_inputs (s : State) (x : Status) : (s.setStatus x).inputs = s.inputs := rfl
@[simp] theorem State.setStatus_boundary (s : State) (x : Status) : (s.setStatus x).boundary = s.boundary := rfl

@[simp] theorem State.latch_v (s : State) (inp : Input) : (s.latch inp).v = s.v := rfl
@[simp] theorem State.latch_i (s : State) (inp : Input) : (s.latch inp).i = s.i := rfl
@[simp] theorem State.latch_pc (s : State) (inp : Input) : (s.latch inp).pc = s.pc := rfl
@[simp] theorem State.latch_sp (s : State) (inp : Input) : (s.latch inp).sp = s.sp := rfl
@[simp] theorem State.latch_stk (s : State) (inp : Input) : (s.latch inp).stk = s.stk := rfl
@[simp] theorem State.latch_dt (s : State) (inp : Input) : (s.latch inp).dt = s.dt := rfl
@[simp] theorem State.latch_st (s : State) (inp : Input) : (s.latch inp).st = s.st := rfl
@[simp] theorem State.latch_mem (s : State) (inp : Input) : (s.latch inp).mem = s.mem := rfl
@[simp] theorem State.latch_fb (s : State) (inp : Input) : (s.latch inp).fb = s.fb := rfl
@[simp] theorem State.latch_status (s : State) (inp : Input) : (s.latch inp).status = s.status := rfl
@[simp] theorem State.latch_keys (s : State) (inp : Input) : (s.latch inp).keys = inp.keys := rfl
@[simp] theorem State.latch_rnd (s : State) (inp : Input) : (s.latch inp).rnd = inp.rnd := rfl
@[simp] theorem State.latch_inputs (s : State) (inp : Input) : (s.latch inp).inputs = s.inputs := rfl
@[simp] theorem State.latch_boundary (s : State) (inp : Input) : (s.latch inp).boundary = s.boundary := rfl

@[simp] theorem State.passBoundary_v (s : State) : s.passBoundary.v = s.v := rfl
@[simp] theorem State.passBoundary_i (s : State) : s.passBoundary.i = s.i := rfl
@[simp] theorem State.passBoundary_pc (s : State) : s.passBoundary.pc = s.pc := rfl
@[simp] theorem State.passBoundary_sp (s : State) : s.passBoundary.sp = s.sp := rfl
@[simp] theorem State.passBoundary_stk (s : State) : s.passBoundary.stk = s.stk := rfl
@[simp] theorem State.passBoundary_dt (s : State) : s.passBoundary.dt = s.dt := rfl
@[simp] theorem State.passBoundary_st (s : State) : s.passBoundary.st = s.st := rfl
@[simp] theorem State.passBoundary_mem (s : State) : s.passBoundary.mem = s.mem := rfl
@[simp] theorem State.passBoundary_fb (s : State) : s.passBoundary.fb = s.fb := rfl
@[simp] theorem State.passBoundary_status (s : State) : s.passBoundary.status = s.status := rfl
@[simp] theorem State.passBoundary_keys (s : State) : s.passBoundary.keys = s.keys := rfl
@[simp] theorem State.passBoundary_rnd (s : State) : s.passBoundary.rnd = s.rnd := rfl
@[simp] theorem State.passBoundary_inputs (s : State) : s.passBoundary.inputs = s.inputs.tail := rfl
@[simp] theorem State.passBoundary_boundary (s : State) : s.passBoundary.boundary = s.boundary + 1 := rfl

@[simp] theorem State.pop_v (s : State) : s.pop.v = s.v := rfl
@[simp] theorem State.pop_i (s : State) : s.pop.i = s.i := rfl
@[simp] theorem State.pop_pc (s : State) : s.pop.pc = s.pc := rfl
@[simp] theorem State.pop_stk (s : State) : s.pop.stk = s.stk := rfl
@[simp] theorem State.pop_dt (s : State) : s.pop.dt = s.dt := rfl
@[simp] theorem State.pop_st (s : State) : s.pop.st = s.st := rfl
@[simp] theorem State.pop_mem (s : State) : s.pop.mem = s.mem := rfl
@[simp] theorem State.pop_fb (s : State) : s.pop.fb = s.fb := rfl
@[simp] theorem State.pop_status (s : State) : s.pop.status = s.status := rfl
@[simp] theorem State.pop_keys (s : State) : s.pop.keys = s.keys := rfl
@[simp] theorem State.pop_rnd (s : State) : s.pop.rnd = s.rnd := rfl
@[simp] theorem State.pop_inputs (s : State) : s.pop.inputs = s.inputs := rfl
@[simp] theorem State.pop_boundary (s : State) : s.pop.boundary = s.boundary := rfl

@[simp] theorem State.resetEvent_v (s : State) : s.resetEvent.v = Vector.replicate 16 0 := rfl
@[simp] theorem State.resetEvent_i (s : State) : s.resetEvent.i = 0 := rfl
@[simp] theorem State.resetEvent_pc (s : State) : s.resetEvent.pc = 0x200 := rfl
@[simp] theorem State.resetEvent_sp (s : State) : s.resetEvent.sp = 0 := rfl
@[simp] theorem State.resetEvent_stk (s : State) : s.resetEvent.stk = s.stk := rfl
@[simp] theorem State.resetEvent_dt (s : State) : s.resetEvent.dt = 0 := rfl
@[simp] theorem State.resetEvent_st (s : State) : s.resetEvent.st = 0 := rfl
@[simp] theorem State.resetEvent_mem (s : State) : s.resetEvent.mem = s.mem := rfl
@[simp] theorem State.resetEvent_fb (s : State) : s.resetEvent.fb = Vector.replicate 32 0 := rfl
@[simp] theorem State.resetEvent_status (s : State) : s.resetEvent.status = .running := rfl
@[simp] theorem State.resetEvent_keys (s : State) : s.resetEvent.keys = s.keys := rfl
@[simp] theorem State.resetEvent_rnd (s : State) : s.resetEvent.rnd = s.rnd := rfl
@[simp] theorem State.resetEvent_inputs (s : State) : s.resetEvent.inputs = s.inputs := rfl
@[simp] theorem State.resetEvent_boundary (s : State) : s.resetEvent.boundary = s.boundary := rfl

@[simp] theorem State.readyToFetch_v (s : State) : s.readyToFetch.v = s.v := rfl
@[simp] theorem State.readyToFetch_i (s : State) : s.readyToFetch.i = s.i := rfl
@[simp] theorem State.readyToFetch_pc (s : State) : s.readyToFetch.pc = if s.fetchable then s.pc else 0x200 := rfl
@[simp] theorem State.readyToFetch_sp (s : State) : s.readyToFetch.sp = s.sp := rfl
@[simp] theorem State.readyToFetch_stk (s : State) : s.readyToFetch.stk = s.stk := rfl
@[simp] theorem State.readyToFetch_dt (s : State) : s.readyToFetch.dt = s.dt := rfl
@[simp] theorem State.readyToFetch_st (s : State) : s.readyToFetch.st = s.st := rfl
@[simp] theorem State.readyToFetch_mem (s : State) : s.readyToFetch.mem = s.mem := rfl
@[simp] theorem State.readyToFetch_fb (s : State) : s.readyToFetch.fb = s.fb := rfl
@[simp] theorem State.readyToFetch_status (s : State) : s.readyToFetch.status = .running := rfl
@[simp] theorem State.readyToFetch_keys (s : State) : s.readyToFetch.keys = s.keys := rfl
@[simp] theorem State.readyToFetch_rnd (s : State) : s.readyToFetch.rnd = s.rnd := rfl
@[simp] theorem State.readyToFetch_inputs (s : State) : s.readyToFetch.inputs = steppableInputs s.inputs := rfl
@[simp] theorem State.readyToFetch_boundary (s : State) : s.readyToFetch.boundary = s.boundary := rfl

@[simp] theorem State.push_v (s : State) (w : Word) (h : s.sp.val ≠ 16) : (s.push w h).v = s.v := rfl
@[simp] theorem State.push_i (s : State) (w : Word) (h : s.sp.val ≠ 16) : (s.push w h).i = s.i := rfl
@[simp] theorem State.push_pc (s : State) (w : Word) (h : s.sp.val ≠ 16) : (s.push w h).pc = s.pc := rfl
@[simp] theorem State.push_dt (s : State) (w : Word) (h : s.sp.val ≠ 16) : (s.push w h).dt = s.dt := rfl
@[simp] theorem State.push_st (s : State) (w : Word) (h : s.sp.val ≠ 16) : (s.push w h).st = s.st := rfl
@[simp] theorem State.push_mem (s : State) (w : Word) (h : s.sp.val ≠ 16) : (s.push w h).mem = s.mem := rfl
@[simp] theorem State.push_fb (s : State) (w : Word) (h : s.sp.val ≠ 16) : (s.push w h).fb = s.fb := rfl
@[simp] theorem State.push_status (s : State) (w : Word) (h : s.sp.val ≠ 16) : (s.push w h).status = s.status := rfl
@[simp] theorem State.push_keys (s : State) (w : Word) (h : s.sp.val ≠ 16) : (s.push w h).keys = s.keys := rfl
@[simp] theorem State.push_rnd (s : State) (w : Word) (h : s.sp.val ≠ 16) : (s.push w h).rnd = s.rnd := rfl
@[simp] theorem State.push_inputs (s : State) (w : Word) (h : s.sp.val ≠ 16) : (s.push w h).inputs = s.inputs := rfl
@[simp] theorem State.push_boundary (s : State) (w : Word) (h : s.sp.val ≠ 16) : (s.push w h).boundary = s.boundary := rfl

@[simp] theorem State.push_sp_val (s : State) (w : Word) (h : s.sp.val ≠ 16) :
    (s.push w h).sp.val = s.sp.val + 1 := rfl

@[simp] theorem State.push_stk (s : State) (w : Word) (h : s.sp.val ≠ 16) :
    (s.push w h).stk = s.stk.set s.sp.val w (by have := s.sp.isLt; omega) := rfl

@[simp] theorem State.pop_sp_val (s : State) : s.pop.sp.val = s.sp.val - 1 := rfl

/-! ### Reading a register after an update -/

theorem State.getV_eq (s : State) (x : Nibble) : s.getV x = s.v[x.toNat]'(x.isLt) := rfl

/-- Reading a register after writing one: the value written, or the register's own. -/
@[simp] theorem State.getV_setV (s : State) (x r : Nibble) (b : Byte) :
    (s.setV x b).getV r = if r = x then b else s.getV r := by
  simp only [State.getV, State.setV, Vector.getElem_set, ← BitVec.toNat_inj, eq_comm (a := x.toNat)]

/-- Two states with the same register file read the same registers. -/
theorem State.getV_congr {s t : State} (h : t.v = s.v) (r : Nibble) : t.getV r = s.getV r := by
  simp only [State.getV, h]

@[simp] theorem State.getV_setI (s : State) (w : Word) (r : Nibble) : (s.setI w).getV r = s.getV r := rfl
@[simp] theorem State.getV_setPc (s : State) (w : Word) (r : Nibble) : (s.setPc w).getV r = s.getV r := rfl
@[simp] theorem State.getV_setDt (s : State) (b : Byte) (r : Nibble) : (s.setDt b).getV r = s.getV r := rfl
@[simp] theorem State.getV_setSt (s : State) (b : Byte) (r : Nibble) : (s.setSt b).getV r = s.getV r := rfl
@[simp] theorem State.getV_setMem (s : State) (m : Memory) (r : Nibble) : (s.setMem m).getV r = s.getV r := rfl
@[simp] theorem State.getV_setFb (s : State) (f : Framebuffer) (r : Nibble) : (s.setFb f).getV r = s.getV r := rfl
@[simp] theorem State.getV_setStatus (s : State) (x : Status) (r : Nibble) : (s.setStatus x).getV r = s.getV r := rfl
@[simp] theorem State.getV_latch (s : State) (inp : Input) (r : Nibble) : (s.latch inp).getV r = s.getV r := rfl
@[simp] theorem State.getV_passBoundary (s : State) (r : Nibble) : (s.passBoundary).getV r = s.getV r := rfl
@[simp] theorem State.getV_pop (s : State) (r : Nibble) : (s.pop).getV r = s.getV r := rfl
@[simp] theorem State.getV_readyToFetch (s : State) (r : Nibble) : (s.readyToFetch).getV r = s.getV r := rfl

@[simp] theorem State.getV_push (s : State) (w : Word) (h : s.sp.val ≠ 16) (r : Nibble) :
    (s.push w h).getV r = s.getV r := rfl

end Sys2Proof.Machine
end

