-- ==== Sys2Proof/Laws/Memory.lean ====
section
/-! SUPPORT. The laws of the RAM: a read after a write, the canonical form kept by every operation, and two canonical
memories that read alike are the same data. -/

namespace Sys2Proof.Machine

theorem Memory.wf_nil : Memory.wf [] := ⟨List.Pairwise.nil, by simp⟩

theorem Memory.wf_tail {c : Host.Cell} {m : Memory} (h : Memory.wf (c :: m)) : Memory.wf m :=
  ⟨(List.pairwise_cons.mp h.1).2, fun d hd => h.2 d (List.mem_cons_of_mem c hd)⟩

/-- An address below every listed one is unlisted. -/
theorem Memory.read_below {m : Memory} {a : Nat} (h : ∀ c ∈ m, a < c.1) : Memory.read m a = 0 := by
  induction m with
  | nil => rfl
  | cons c m ih =>
    have hc := h c (by simp)
    have hne : c.1 ≠ a := by omega
    simp only [Memory.read, hne, if_false]
    exact ih fun d hd => h d (List.mem_cons_of_mem c hd)

theorem Memory.read_head_below {k : Nat} {b : Byte} {m : Memory} {a : Nat} (h : Memory.wf ((k, b) :: m))
    (ha : a ≤ k) : Memory.read m a = 0 :=
  Memory.read_below fun c hc => Nat.lt_of_le_of_lt ha ((List.pairwise_cons.mp h.1).1 c hc)

/-- A write leaves every other address alone, in every memory. -/
theorem Memory.read_write_of_ne (m : Memory) {a c : Nat} (v : Byte) (h : c ≠ a) :
    Memory.read (Memory.write m a v) c = Memory.read m c := by
  induction m with
  | nil =>
    have : a ≠ c := Ne.symm h
    simp only [Memory.write]
    split <;> simp [Memory.read, this]
  | cons e m ih =>
    obtain ⟨k, b⟩ := e
    have hac : a ≠ c := Ne.symm h
    simp only [Memory.write]
    split
    · split <;> simp [Memory.read, hac]
    · split
      · rename_i hk
        subst hk
        split <;> simp [Memory.read, hac]
      · simp only [Memory.read, ih]

/-- A read after a write to the same address gives the value written, in a canonical memory. -/
theorem Memory.read_write_self {m : Memory} (h : Memory.wf m) (a : Nat) (v : Byte) :
    Memory.read (Memory.write m a v) a = v := by
  induction m with
  | nil =>
    simp only [Memory.write]
    split <;> simp_all [Memory.read]
  | cons e m ih =>
    obtain ⟨k, b⟩ := e
    simp only [Memory.write]
    split
    · rename_i hk
      split
      · rename_i hv
        have hne : k ≠ a := by omega
        simp only [Memory.read, hne, if_false, hv]
        exact Memory.read_head_below h (by omega)
      · simp [Memory.read]
    · split
      · rename_i hk
        subst hk
        split
        · rename_i hv
          rw [Memory.read_head_below h (Nat.le_refl a), hv]
        · simp [Memory.read]
      · rename_i h1 h2
        have hne : k ≠ a := fun e => h2 e.symm
        simp only [Memory.read, hne, if_false]
        exact ih (Memory.wf_tail h)

/-- The one law of a write: the value at the address written, what was there everywhere else. -/
theorem Memory.read_write {m : Memory} (h : Memory.wf m) (a c : Nat) (v : Byte) :
    Memory.read (Memory.write m a v) c = if c = a then v else Memory.read m c := by
  split
  · rename_i e
    rw [e, Memory.read_write_self h]
  · exact Memory.read_write_of_ne m v (by assumption)

theorem Memory.mem_write {m : Memory} {a : Nat} {v : Byte} {c : Host.Cell} (h : c ∈ Memory.write m a v) :
    c ∈ m ∨ c = (a, v) ∧ v ≠ 0 := by
  induction m with
  | nil =>
    simp only [Memory.write] at h
    split at h <;> simp_all
  | cons e m ih =>
    obtain ⟨k, b⟩ := e
    simp only [Memory.write] at h
    split at h
    · split at h
      · exact .inl h
      · simp only [List.mem_cons] at h
        rcases h with h | h | h
        · exact .inr ⟨h, by assumption⟩
        · exact .inl (by simp [h])
        · exact .inl (by simp [h])
    · split at h
      · split at h
        · exact .inl (by simp [h])
        · simp only [List.mem_cons] at h
          rcases h with h | h
          · exact .inr ⟨h, by assumption⟩
          · exact .inl (by simp [h])
      · simp only [List.mem_cons] at h
        rcases h with h | h
        · exact .inl (by simp [h])
        · rcases ih h with h | h
          · exact .inl (by simp [h])
          · exact .inr h

/-- A write inside the RAM keeps the canonical form. -/
theorem Memory.wf_write {m : Memory} (h : Memory.wf m) {a : Nat} (ha : a < 4096) (v : Byte) :
    Memory.wf (Memory.write m a v) := by
  refine ⟨?_, fun c hc => ?_⟩
  · induction m with
    | nil =>
      simp only [Memory.write]
      split <;> simp
    | cons e m ih =>
      obtain ⟨k, b⟩ := e
      have hp := List.pairwise_cons.mp h.1
      simp only [Memory.write]
      split
      · rename_i hk
        split
        · exact h.1
        · refine List.pairwise_cons.mpr ⟨fun c hc => ?_, h.1⟩
          rcases List.mem_cons.mp hc with rfl | hc
          · exact hk
          · exact Nat.lt_trans hk (hp.1 c hc)
      · split
        · rename_i hk
          subst hk
          split
          · exact hp.2
          · exact List.pairwise_cons.mpr ⟨hp.1, hp.2⟩
        · rename_i h1 h2
          refine List.pairwise_cons.mpr ⟨fun c hc => ?_, ih (Memory.wf_tail h)⟩
          rcases Memory.mem_write hc with hc | ⟨rfl, -⟩
          · exact hp.1 c hc
          · show k < a
            omega
  · rcases Memory.mem_write hc with hc | ⟨rfl, hv⟩
    · exact h.2 c hc
    · exact ⟨ha, hv⟩

/-- A run of writes inside the RAM keeps the canonical form. -/
theorem Memory.wf_writeRun {m : Memory} (h : Memory.wf m) (bs : List Byte) (a : Nat) (ha : a + bs.length ≤ 4096) :
    Memory.wf (Memory.writeRun m a bs) := by
  induction bs generalizing m a with
  | nil => exact h
  | cons b bs ih =>
    simp only [List.length_cons] at ha
    exact ih (Memory.wf_write h (by omega) b) (a + 1) (by omega)

/-- A run of writes leaves every address outside the run alone, in every memory. -/
theorem Memory.read_writeRun_outside (m : Memory) (bs : List Byte) (a c : Nat) (h : c < a ∨ a + bs.length ≤ c) :
    Memory.read (Memory.writeRun m a bs) c = Memory.read m c := by
  induction bs generalizing m a with
  | nil => rfl
  | cons b bs ih =>
    simp only [List.length_cons] at h
    rw [Memory.writeRun, ih _ (a + 1) (by omega), Memory.read_write_of_ne m b (by omega)]

/-- A read inside a run of writes gives the byte written there. -/
theorem Memory.read_writeRun_inside {m : Memory} (h : Memory.wf m) (bs : List Byte) (a : Nat)
    (ha : a + bs.length ≤ 4096) (j : Nat) (hj : j < bs.length) :
    Memory.read (Memory.writeRun m a bs) (a + j) = bs[j] := by
  induction bs generalizing m a j with
  | nil => simp at hj
  | cons b bs ih =>
    simp only [List.length_cons] at ha hj
    cases j with
    | zero =>
      rw [Memory.writeRun, Memory.read_writeRun_outside _ _ _ _ (by omega)]
      simpa using Memory.read_write_self h a b
    | succ j =>
      rw [Memory.writeRun, show a + (j + 1) = a + 1 + j by omega,
        ih (Memory.wf_write h (by omega) b) (a + 1) (by omega) j (by omega)]
      rfl

@[simp] theorem Memory.length_readRun (m : Memory) (a n : Nat) : (Memory.readRun m a n).length = n := by
  induction n generalizing a with
  | zero => rfl
  | succ n ih => simp [Memory.readRun, ih]

/-- The `j`-th byte of a run read at `a` is the byte at `a + j`. -/
theorem Memory.getElem_readRun (m : Memory) (a n j : Nat) (h : j < (Memory.readRun m a n).length) :
    (Memory.readRun m a n)[j] = Memory.read m (a + j) := by
  induction n generalizing a j with
  | zero => simp at h
  | succ n ih =>
    cases j with
    | zero => rfl
    | succ j =>
      simp only [Memory.readRun, List.getElem_cons_succ]
      rw [ih (a + 1) j]
      congr 1
      omega

/-- Two canonical memories that read alike at every address are the same data. -/
theorem Memory.ext_read {m n : Memory} (hm : Memory.wf m) (hn : Memory.wf n)
    (h : ∀ a, Memory.read m a = Memory.read n a) : m = n := by
  induction m generalizing n with
  | nil =>
    cases n with
    | nil => rfl
    | cons e n =>
      have := h e.1
      simp only [Memory.read, if_true] at this
      exact absurd this.symm (hn.2 e (by simp)).2
  | cons d m ih =>
    cases n with
    | nil =>
      have := h d.1
      simp only [Memory.read, if_true] at this
      exact absurd this (hm.2 d (by simp)).2
    | cons e n =>
      obtain ⟨k, b⟩ := d
      obtain ⟨l, c⟩ := e
      have hb := (hm.2 (k, b) (by simp)).2
      have hc := (hn.2 (l, c) (by simp)).2
      have hkl : k = l := by
        rcases Nat.lt_trichotomy k l with hlt | heq | hgt
        · have := h k
          have hne : l ≠ k := by omega
          simp only [Memory.read, if_true, hne, if_false] at this
          rw [Memory.read_head_below hn (by omega)] at this
          exact absurd this hb
        · exact heq
        · have := h l
          have hne : k ≠ l := by omega
          simp only [Memory.read, if_true, hne, if_false] at this
          rw [Memory.read_head_below hm (by omega)] at this
          exact absurd this.symm hc
      subst hkl
      have hbc : b = c := by
        have := h k
        simpa only [Memory.read, if_true] using this
      subst hbc
      congr 1
      refine ih (Memory.wf_tail hm) (Memory.wf_tail hn) fun a => ?_
      by_cases ha : a ≤ k
      · rw [Memory.read_head_below hm ha, Memory.read_head_below hn ha]
      · have := h a
        have hne : k ≠ a := by omega
        simpa only [Memory.read, hne, if_false] using this

theorem Memory.wf_reset : Memory.wf State.reset.mem := Memory.wf_nil

end Sys2Proof.Machine
end

