-- ==== Sys2Proof/Laws/Ops.lean ====
section
/-! SUPPORT. One lemma per shared operation, saying what it gives; proofs about instructions cite these. -/

namespace Sys2Proof.Machine

/-! ### Operand forms -/

@[simp] theorem toNat_zextAddr (a : Addr12) : (zextAddr a).toNat = a.toNat := by
  have := a.isLt
  simp only [zextAddr, BitVec.toNat_setWidth]
  omega

@[simp] theorem toNat_zextByte (b : Byte) : (zextByte b).toNat = b.toNat := by
  have := b.isLt
  simp only [zextByte, BitVec.toNat_setWidth]
  omega

/-- The bounds rule as arithmetic on `I` (spec/20_memory.md R65). -/
theorem State.outOfBounds_iff (s : State) (m : Nat) :
    s.outOfBounds m = true ↔ 1 ≤ m ∧ s.i.toNat + (m - 1) > 4095 := by
  rw [State.outOfBounds, decide_eq_true_iff]
  simp only [State.dataAddr, Config.memSize]

theorem State.outOfBounds_eq_false_iff (s : State) (m : Nat) :
    s.outOfBounds m = false ↔ m = 0 ∨ s.i.toNat + (m - 1) ≤ 4095 := by
  rw [← Bool.not_eq_true, State.outOfBounds_iff]
  omega

@[simp] theorem State.toNat_boundsInfo (s : State) : s.boundsInfo.toNat = max s.i.toNat 4096 := by
  have := s.i.isLt
  simp only [State.boundsInfo, Config.memSize, BitVec.toNat_ofNat]
  omega

@[simp] theorem State.dataAddr_eq (s : State) (r : Nat) : s.dataAddr r = s.i.toNat + r := rfl

/-- `min(keys)` is the pressed key below which none is pressed (spec/45_input_timers.md R239). -/
theorem toNat_minKey {keys : BitVec 16} {k : Nat} (hk : k < 16) (h : keys.getLsbD k = true)
    (hmin : ∀ j, j < k → keys.getLsbD j = false) : (minKey keys).toNat = k := by
  have hf : (List.range 16).find? (fun k => keys.getLsbD k) = some k := by
    rw [List.find?_range_eq_some]
    exact ⟨h, by simpa using hk, fun j hj => by simp [hmin j hj]⟩
  simp only [minKey, hf, Option.getD_some, BitVec.toNat_ofNat]
  omega

/-- A non-empty snapshot has a lowest key. -/
theorem exists_lowest_key {keys : BitVec 16} (h : keys ≠ 0) :
    ∃ k, k < 16 ∧ keys.getLsbD k = true ∧ ∀ j, j < k → keys.getLsbD j = false := by
  have hex : ∃ k, keys.getLsbD k = true := by
    by_contra hn
    simp only [not_exists, Bool.not_eq_true] at hn
    exact h (BitVec.eq_of_getLsbD_eq fun i hi => by rw [hn i]; simp)
  refine ⟨Nat.find hex, ?_, Nat.find_spec hex, fun j hj => by simpa using Nat.find_min hex hj⟩
  by_contra hge
  have := Nat.find_spec hex
  rw [BitVec.getLsbD_of_ge _ _ (by omega)] at this
  exact Bool.false_ne_true this

theorem keys_eq_zero_iff (keys : BitVec 16) : keys = 0 ↔ ∀ k : Fin 16, keys[k.val] = false := by
  constructor
  · rintro rfl k
    simp
  · intro h
    ext i hi
    simpa using h ⟨i, hi⟩

/-! ### Flags -/

@[simp] theorem toNat_flagByte (c : Bool) : (flagByte c).toNat = if c then 1 else 0 := by
  cases c <;> rfl

@[simp] theorem toNat_sumByte (a b : Byte) : (sumByte a b).toNat = (a.toNat + b.toNat) % 256 := by
  simp only [sumByte, BitVec.toNat_ofNat]

@[simp] theorem toNat_differenceByte (a b : Byte) :
    (differenceByte a b).toNat = (a.toNat + 256 - b.toNat) % 256 := by
  have := a.isLt
  have := b.isLt
  simp only [differenceByte, BitVec.toNat_ofInt]
  omega

@[simp] theorem toNat_shiftRightByte (a : Byte) : (shiftRightByte a).toNat = a.toNat / 2 := by
  simp only [shiftRightByte, BitVec.toNat_ushiftRight, Nat.shiftRight_eq_div_pow]

@[simp] theorem toNat_shiftLeftByte (a : Byte) : (shiftLeftByte a).toNat = a.toNat * 2 % 256 := by
  simp only [shiftLeftByte, BitVec.toNat_shiftLeft, Nat.shiftLeft_eq]

theorem shiftedOutRight_eq (a : Byte) : shiftedOutRight a = decide (a.toNat % 2 = 1) := by
  simp only [shiftedOutRight, BitVec.getLsbD, Nat.testBit_zero]

theorem shiftedOutLeft_eq (a : Byte) : shiftedOutLeft a = decide (a.toNat / 128 % 2 = 1) := by
  simp only [shiftedOutLeft, BitVec.getLsbD, Nat.testBit_eq_decide_div_mod_eq]

/-- A register after a flag-writing instruction: the destination holds the result, `VF` the flag unless it is the
destination, every other register its own value (spec/42_load_arith_logic.md R173). -/
theorem State.getV_flagThenResult (s : State) (x r : Nibble) (c : Bool) (b : Byte) :
    (s.flagThenResult x c b).getV r = if r = x then b else if r = 15 then flagByte c else s.getV r := by
  simp only [State.flagThenResult, State.setFlag, Config.flagReg, State.getV_setV]

/-! ### Register runs -/

@[simp] theorem State.length_regsUpTo (s : State) (x : Nibble) : (s.regsUpTo x).length = x.toNat + 1 := by
  have := x.isLt
  simp only [State.regsUpTo, List.length_take, Vector.length_toList]
  omega

theorem State.getElem_regsUpTo (s : State) (x j : Nibble) (h : j.toNat < (s.regsUpTo x).length) :
    (s.regsUpTo x)[j.toNat] = s.getV j := by
  simp only [State.regsUpTo, List.getElem_take, Vector.getElem_toList, State.getV]

/-- The byte of RAM where Store-registers has put `V[j]` (spec/43_index_memory.md R195). -/
theorem State.read_storedRegs {s : State} {x : Nibble} (hw : Memory.wf s.mem) (h : s.i.toNat + x.toNat ≤ 4095)
    (j : Nibble) (hj : j.toNat ≤ x.toNat) :
    Memory.read (Memory.writeRun s.mem (s.dataAddr 0) (s.regsUpTo x)) (s.i.toNat + j.toNat) = s.getV j := by
  have hl : j.toNat < (s.regsUpTo x).length := by
    rw [State.length_regsUpTo]
    omega
  have hr := Memory.read_writeRun_inside hw (s.regsUpTo x) s.i.toNat
    (by rw [State.length_regsUpTo]; omega) j.toNat hl
  rw [State.getElem_regsUpTo] at hr
  exact hr

/-- A register after Load-registers (spec/43_index_memory.md R196). -/
theorem State.getV_setAllV_loadedRegs (s : State) (x j : Nibble) :
    (s.setAllV (s.loadedRegs x)).getV j =
      if j.toNat ≤ x.toNat then Memory.read s.mem (s.i.toNat + j.toNat) else s.getV j := by
  simp only [State.getV, State.setAllV, State.loadedRegs, Vector.getElem_ofFn, State.dataAddr]

/-- The registers `V[0]` to `V[x]`, as a list of register numbers, hold exactly the numbers up to `x`. -/
theorem mem_regsThrough_iff {x r : Nibble} {l : List Nibble}
    (hl : l = (List.range (x.toNat + 1)).map (BitVec.ofNat 4)) : r ∈ l ↔ r.toNat ≤ x.toNat := by
  subst hl
  simp only [List.mem_map, List.mem_range]
  constructor
  · rintro ⟨k, hk, rfl⟩
    simp only [BitVec.toNat_ofNat]
    exact Nat.le_trans (Nat.mod_le _ _) (by omega)
  · intro h
    exact ⟨r.toNat, by omega, by simp⟩

/-! ### Stack, timers -/

theorem State.top_eq (s : State) (j : Fin 16) (h : s.sp.val = j.val + 1) : s.top = s.stk[j.val] := by
  simp only [State.top, h, Nat.add_sub_cancel]

@[simp] theorem toNat_countDown (t : Byte) (n : Nat) : (countDown t n).toNat = t.toNat - n := by
  have := t.isLt
  simp only [countDown]
  split
  · rename_i h
    simp [h]
  · simp only [BitVec.toNat_ofNat]
    omega

/-- `n` ticks change the two timers and nothing else. -/
theorem State.ticks_eq (s : State) (n : Nat) :
    s.ticks n = { s with dt := countDown s.dt n, st := countDown s.st n } := rfl

@[simp] theorem State.ticks_dt (s : State) (n : Nat) : (s.ticks n).dt = countDown s.dt n := rfl

@[simp] theorem State.ticks_st (s : State) (n : Nat) : (s.ticks n).st = countDown s.st n := rfl

theorem State.tick_eq_ticks_one (s : State) : s.tick = s.ticks 1 := by
  have h : ∀ t : Byte, (if t = 0 then 0 else t - 1) = countDown t 1 := by
    intro t
    have := t.isLt
    apply BitVec.eq_of_toNat_eq
    rw [toNat_countDown]
    split
    · rename_i h0
      simp [h0]
    · rename_i h0
      have h0 : t.toNat ≠ 0 := fun e => h0 (BitVec.eq_of_toNat_eq e)
      rw [BitVec.toNat_sub, show (1 : Byte).toNat = 1 from rfl]
      omega
  simp only [State.tick, State.ticks, h]

/-! ### The inputs of a boundary -/

@[simp] theorem State.sampled_cons (s : State) (inp : Input) (rest : List Input) (h : s.inputs = inp :: rest) :
    s.sampled = inp := by
  simp only [State.sampled, h]

theorem State.sampled_nil {s : State} (h : s.inputs = []) :
    s.sampled.rst = false ∧ s.sampled.run = true ∧ s.sampled.load = none ∧
      s.sampled.keys = Config.freeKeys s.boundary ∧ s.sampled.rnd = Config.freeRnd s.boundary ∧
      s.sampled.ticks = Config.freeTicks s.boundary := by
  simp [State.sampled, h]

/-- The state a core step starts from: ticks applied, inputs latched, the boundary passed, nothing else. -/
theorem State.stepStart_eq (s : State) :
    s.stepStart = { s with
      dt := countDown s.dt s.sampled.ticks
      st := countDown s.st s.sampled.ticks
      keys := s.sampled.keys
      rnd := s.sampled.rnd
      inputs := s.inputs.tail
      boundary := s.boundary + 1 } := rfl

/-! ### The step -/

/-- The step, by reset, status and permission to step. -/
theorem step_eq (s : State) :
    step s =
      if s.sampled.rst then .next (s.passBoundary.resetEvent.loaderWrite s.sampled.load)
      else match s.status with
        | .faulted c pc0 info => if s.inputs = [] then .fault (.halted c pc0 info) else .next s.passBoundary
        | .running =>
          if s.sampled.run then instructionStep s.stepStart else .next (s.passBoundary.ticks s.sampled.ticks)
        | .awaitKey x =>
          .next (if s.sampled.run then s.stepStart.poll x else s.passBoundary.ticks s.sampled.ticks) := rfl

/-- The instruction step of a state whose fetch checks pass and whose word decodes. -/
theorem instructionStep_of_decode {s : State} {i : Instr} (h : s.fetchable = true)
    (hd : decode s.fetchWord = .instr i) : instructionStep s = exec i s.advance := by
  simp only [State.fetchable, decide_eq_true_eq] at h
  have h1 : ¬(s.pc.toNat % 2 = 1) := by omega
  have h2 : ¬(s.pc.toNat > 4094) := by omega
  simp only [instructionStep, h1, h2, if_false, hd]

/-- The instruction step of a state whose fetch checks pass and whose word decodes to nothing. -/
theorem instructionStep_of_decodeFailure {s : State} (h : s.fetchable = true)
    (hd : decode s.fetchWord = .decodeFailure) :
    instructionStep s = .next (s.advance.raise .decodeFailure s.pc s.fetchWord) := by
  rw [State.fetchable, decide_eq_true_iff] at h
  have h1 : ¬(s.pc.toNat % 2 = 1) := by omega
  have h2 : ¬(s.pc.toNat > 4094) := by omega
  simp only [instructionStep, h1, h2, if_false, hd]

/-- The instruction step of a state whose fetch checks fail: parity first. -/
theorem instructionStep_of_not_fetchable {s : State} (h : s.fetchable = false) :
    ∃ c, (c = .pcMisaligned ∧ s.pc.toNat % 2 = 1 ∨ c = .fetchBounds ∧ s.pc.toNat % 2 = 0 ∧ s.pc.toNat > 4094) ∧
      instructionStep s = .next (s.raise c s.pc s.pc) := by
  rw [State.fetchable, decide_eq_false_iff_not] at h
  by_cases h1 : s.pc.toNat % 2 = 1
  · exact ⟨.pcMisaligned, .inl ⟨rfl, h1⟩, by simp only [instructionStep, h1, if_true]⟩
  · have h2 : s.pc.toNat > 4094 := by omega
    exact ⟨.fetchBounds, .inr ⟨rfl, by omega, h2⟩, by simp only [instructionStep, h1, h2, if_true, if_false]⟩

theorem State.issued_eq_some_iff (s : State) (i : Instr) :
    s.issued = some i ↔
      s.sampled.rst = false ∧ s.sampled.run = true ∧ s.status = .running ∧ s.fetchable = true ∧
        decode s.fetchWord = .instr i := by
  simp only [State.issued]
  split
  · rename_i h
    cases hd : decode s.fetchWord <;> simp [h]
  · rename_i h
    simp only [reduceCtorEq, false_iff]
    rintro ⟨a, b, c, d, -⟩
    exact h ⟨a, b, c, d⟩

@[simp] theorem State.fetchable_stepStart (s : State) : s.stepStart.fetchable = s.fetchable := rfl

@[simp] theorem State.fetchWord_stepStart (s : State) : s.stepStart.fetchWord = s.fetchWord := rfl

/-- The step of a state that issues an instruction is that instruction's meaning. -/
theorem step_of_issued {s : State} {i : Instr} (h : s.issued = some i) : step s = exec i s.stepStart.advance := by
  obtain ⟨h1, h2, h3, h4, h5⟩ := (s.issued_eq_some_iff i).mp h
  rw [step_eq, h1, h3]
  simp only [Bool.false_eq_true, if_false, h2, if_true]
  exact instructionStep_of_decode h4 h5

/-- Everything a step that answers a next state can have done: reset; a boundary at which the core may not step; a boundary
passing a Faulted core by; a key poll; a failed fetch check; a word that decodes to nothing; an instruction executed. -/
theorem step_cases {s t : State} (h : step s = .next t) :
    (s.sampled.rst = true ∧ t = s.passBoundary.resetEvent.loaderWrite s.sampled.load) ∨
    (s.sampled.rst = false ∧ s.sampled.run = false ∧ (∀ c p n, s.status ≠ .faulted c p n) ∧
      t = s.passBoundary.ticks s.sampled.ticks) ∨
    (s.sampled.rst = false ∧ (∃ c p n, s.status = .faulted c p n) ∧ s.inputs ≠ [] ∧ t = s.passBoundary) ∨
    (∃ x, s.sampled.rst = false ∧ s.sampled.run = true ∧ s.status = .awaitKey x ∧ t = s.stepStart.poll x) ∨
    (s.sampled.rst = false ∧ s.sampled.run = true ∧ s.status = .running ∧ s.fetchable = false ∧
      ∃ c, (c = .pcMisaligned ∧ s.pc.toNat % 2 = 1 ∨ c = .fetchBounds ∧ s.pc.toNat % 2 = 0 ∧ s.pc.toNat > 4094) ∧
        t = s.stepStart.raise c s.pc s.pc) ∨
    (s.sampled.rst = false ∧ s.sampled.run = true ∧ s.status = .running ∧ s.fetchable = true ∧
      decode s.fetchWord = .decodeFailure ∧
      t = s.stepStart.advance.raise .decodeFailure s.pc s.fetchWord) ∨
    (∃ i, s.issued = some i ∧ exec i s.stepStart.advance = .next t) := by
  rw [step_eq] at h
  cases hr : s.sampled.rst with
  | true =>
    simp only [hr, if_true, Host.Outcome.next.injEq] at h
    exact .inl ⟨rfl, h.symm⟩
  | false =>
    simp only [hr, Bool.false_eq_true, if_false] at h
    cases hs : s.status with
    | faulted c p n =>
      simp only [hs] at h
      split at h
      · cases h
      · exact .inr (.inr (.inl ⟨rfl, ⟨c, p, n, rfl⟩, by assumption, by cases h; rfl⟩))
    | awaitKey x =>
      simp only [hs, Host.Outcome.next.injEq] at h
      cases hn : s.sampled.run with
      | false =>
        simp only [hn, Bool.false_eq_true, if_false] at h
        exact .inr (.inl ⟨rfl, rfl, fun c p n => Status.noConfusion, h.symm⟩)
      | true =>
        simp only [hn, if_true] at h
        exact .inr (.inr (.inr (.inl ⟨x, rfl, rfl, rfl, h.symm⟩)))
    | running =>
      cases hn : s.sampled.run with
      | false =>
        simp only [hs, hn, Bool.false_eq_true, if_false, Host.Outcome.next.injEq] at h
        exact .inr (.inl ⟨rfl, rfl, fun c p n => Status.noConfusion, h.symm⟩)
      | true =>
        simp only [hs, hn, if_true] at h
        by_cases hf : s.fetchable = true
        · cases hd : decode s.fetchWord with
          | instr i =>
            rw [instructionStep_of_decode (s := s.stepStart) hf hd] at h
            exact .inr (.inr (.inr (.inr (.inr (.inr
              ⟨i, (s.issued_eq_some_iff i).mpr ⟨hr, hn, hs, hf, hd⟩, h⟩)))))
          | decodeFailure =>
            rw [instructionStep_of_decodeFailure (s := s.stepStart) hf hd, Host.Outcome.next.injEq] at h
            exact .inr (.inr (.inr (.inr (.inr (.inl ⟨rfl, rfl, rfl, hf, rfl, h.symm⟩)))))
        · simp only [Bool.not_eq_true] at hf
          obtain ⟨c, hc, he⟩ := instructionStep_of_not_fetchable (s := s.stepStart) hf
          rw [he, Host.Outcome.next.injEq] at h
          exact .inr (.inr (.inr (.inr (.inl ⟨rfl, rfl, rfl, hf, c, hc, h.symm⟩))))

end Sys2Proof.Machine
end

