-- ==== Sys2Proof/Laws/Display.lean ====
section
/-! SUPPORT. The laws of the sprite engine: what one cell is after a pixel, a row and a whole sprite, and when a collision is
recorded (spec/44_display.md R214 to R217). -/

namespace Sys2Proof.Machine

/-- A cell after a cell has been written. -/
theorem cell_setCell (fb : Framebuffer) (row r : Fin 32) (col c : Fin 64) (b : Bool) :
    cell (setCell fb row col b) r c = if r = row ∧ c = col then b else cell fb r c := by
  have hc := c.isLt
  simp only [cell, setCell, Vector.getElem_set, Fin.ext_iff, eq_comm (a := row.val)]
  by_cases h : r.val = row.val
  · cases b <;> by_cases h2 : c.val = col.val <;>
      simp [h, h2, hc]
  · simp [h]

/-- Two framebuffers with the same cells are the same. -/
theorem framebuffer_ext {f g : Framebuffer} (h : ∀ row col, cell f row col = cell g row col) : f = g := by
  apply Vector.ext
  intro i hi
  apply BitVec.eq_of_getLsbD_eq
  intro j hj
  exact h ⟨i, hi⟩ ⟨j, hj⟩

@[simp] theorem cell_clear (row : Fin 32) (col : Fin 64) : cell (Vector.replicate 32 0) row col = false := by
  simp [cell]

/-- A set sprite bit flips its target cell and no other. -/
theorem cell_blitPixel (row r : Fin 32) (col c : Fin 64) (acc : Blit) :
    cell (blitPixel row col acc).1 r c = (cell acc.1 r c ^^ decide (r = row ∧ c = col)) := by
  simp only [blitPixel]
  split <;> rename_i h <;> rw [cell_setCell] <;> split <;> rename_i e
  · rw [e.1, e.2, h]
    simp
  · simp [e]
  · rw [e.1, e.2]
    simp [h]
  · simp [e]

/-- A set sprite bit records a collision exactly when its target cell was lit. -/
theorem collided_blitPixel (row : Fin 32) (col : Fin 64) (acc : Blit) :
    (blitPixel row col acc).2 = (acc.2 || cell acc.1 row col) := by
  simp only [blitPixel]
  split <;> rename_i h <;> simp [h]

theorem targetCol_inj {vx : Byte} {i j : Nat} (hi : i < 64) (hj : j < 64) (h : targetCol vx i = targetCol vx j) :
    i = j := by
  simp only [targetCol, Fin.ext_iff, Fin.val_ofNat] at h
  omega

theorem targetRow_inj {vy : Byte} {i j : Nat} (h : targetRow vy i = targetRow vy j) (hi : i < j + 32)
    (hj : j < i + 32) : i = j := by
  simp only [targetRow, Fin.ext_iff, Fin.val_ofNat] at h
  omega

/-- Whether one of the first `n` pixels of a sprite byte is set and lands on column `c`. -/
def rowMask (vx : Byte) (b : Byte) (n : Nat) (c : Fin 64) : Prop :=
  ∃ k, k < n ∧ spriteBit b k = true ∧ targetCol vx k = c

/-- Whether one of the first `n` pixels of a sprite byte is set and lands on a lit cell. -/
def rowHits (fb : Framebuffer) (vx : Byte) (row : Fin 32) (b : Byte) (n : Nat) : Prop :=
  ∃ k, k < n ∧ spriteBit b k = true ∧ cell fb row (targetCol vx k) = true

open Classical in
/-- The first `n` pixels of one sprite row: the cells they are set on flip, each once. -/
theorem blitRow_range (vx : Byte) (row : Fin 32) (b : Byte) (acc : Blit) (n : Nat) (hn : n ≤ 64) :
    (∀ r c, cell ((List.range n).foldl
        (fun a c => if spriteBit b c then blitPixel row (targetCol vx c) a else a) acc).1 r c =
      (cell acc.1 r c ^^ decide (r = row ∧ rowMask vx b n c))) ∧
    ((List.range n).foldl (fun a c => if spriteBit b c then blitPixel row (targetCol vx c) a else a) acc).2 =
      (acc.2 || decide (rowHits acc.1 vx row b n)) := by
  induction n with
  | zero => simp [rowMask, rowHits]
  | succ n ih =>
    obtain ⟨ih1, ih2⟩ := ih (by omega)
    simp only [List.range_succ, List.foldl_append, List.foldl_cons, List.foldl_nil]
    have hm : ∀ c, rowMask vx b (n + 1) c ↔ rowMask vx b n c ∨ (spriteBit b n = true ∧ targetCol vx n = c) := by
      intro c
      constructor
      · rintro ⟨k, hk, h1, h2⟩
        rcases Nat.lt_succ_iff_lt_or_eq.mp hk with hk | rfl
        · exact .inl ⟨k, hk, h1, h2⟩
        · exact .inr ⟨h1, h2⟩
      · rintro (⟨k, hk, h⟩ | h)
        · exact ⟨k, by omega, h⟩
        · exact ⟨n, by omega, h⟩
    have hf : rowHits acc.1 vx row b (n + 1) ↔ rowHits acc.1 vx row b n ∨
          (spriteBit b n = true ∧ cell acc.1 row (targetCol vx n) = true) := by
      constructor
      · rintro ⟨k, hk, h⟩
        rcases Nat.lt_succ_iff_lt_or_eq.mp hk with hk | rfl
        · exact .inl ⟨k, hk, h⟩
        · exact .inr h
      · rintro (⟨k, hk, h⟩ | h)
        · exact ⟨k, by omega, h⟩
        · exact ⟨n, by omega, h⟩
    have hnew : ¬rowMask vx b n (targetCol vx n) := by
      rintro ⟨k, hk, -, h⟩
      have := targetCol_inj (by omega) (by omega) h
      omega
    by_cases hb : spriteBit b n = true
    · simp only [hb, if_true]
      refine ⟨fun r c => ?_, ?_⟩
      · rw [cell_blitPixel, ih1, Bool.xor_assoc]
        congr 1
        by_cases h1 : r = row
        · by_cases h2 : c = targetCol vx n
          · subst h2
            simp [h1, hm, hnew, hb]
          · simp [h1, h2, hm, Ne.symm h2]
        · simp [h1]
      · rw [collided_blitPixel, ih2, ih1]
        simp only [hnew, and_false, decide_false, Bool.xor_false, hf, hb, true_and, Bool.decide_or,
          Bool.decide_eq_true, Bool.or_assoc]
    · simp only [hb, Bool.false_eq_true, if_false]
      refine ⟨fun r c => ?_, ?_⟩
      · rw [ih1]
        simp [hm, hb]
      · rw [ih2]
        simp only [hf, Bool.not_eq_true] at hb ⊢
        simp only [hb, Bool.false_eq_true, false_and, or_false]

/-- Whether a set bit of a sprite, its first row at row offset `r0`, lands on the cell at (`row`, `col`). -/
def spriteMask (vx vy : Byte) (rows : List Byte) (r0 : Nat) (row : Fin 32) (col : Fin 64) : Prop :=
  ∃ j, ∃ h : j < rows.length, row = targetRow vy (r0 + j) ∧ rowMask vx rows[j] 8 col

open Classical in
/-- The rows of a sprite of at most 32 rows: the cells its set bits land on flip, each once, and a collision is recorded exactly
when one of them was lit before. -/
theorem blitRows_eq (vx vy : Byte) (rows : List Byte) (r0 : Nat) (acc : Blit) (hn : rows.length ≤ 32) :
    (∀ row col, cell (blitRows vx vy r0 rows acc).1 row col =
      (cell acc.1 row col ^^ decide (spriteMask vx vy rows r0 row col))) ∧
    (blitRows vx vy r0 rows acc).2 =
      (acc.2 || decide (∃ row col, spriteMask vx vy rows r0 row col ∧ cell acc.1 row col = true)) := by
  induction rows generalizing r0 acc with
  | nil => simp [blitRows, spriteMask]
  | cons b bs ih =>
    simp only [List.length_cons] at hn
    obtain ⟨h1, h2⟩ := blitRow_range vx (targetRow vy r0) b acc 8 (by omega)
    obtain ⟨ih1, ih2⟩ := ih (r0 + 1) (blitRow vx (targetRow vy r0) b acc) (by omega)
    have hm : ∀ row col, spriteMask vx vy (b :: bs) r0 row col ↔
        (row = targetRow vy r0 ∧ rowMask vx b 8 col) ∨ spriteMask vx vy bs (r0 + 1) row col := by
      intro row col
      constructor
      · rintro ⟨j, hj, hr, hc⟩
        cases j with
        | zero => exact .inl ⟨hr, hc⟩
        | succ j =>
          refine .inr ⟨j, by simpa using hj, ?_, by simpa using hc⟩
          rw [hr]
          congr 1
          omega
      · rintro (⟨hr, hc⟩ | ⟨j, hj, hr, hc⟩)
        · exact ⟨0, by simp, hr, hc⟩
        · refine ⟨j + 1, by simpa using hj, ?_, by simpa using hc⟩
          rw [hr]
          congr 1
          omega
    have hnew : ∀ col, ¬spriteMask vx vy bs (r0 + 1) (targetRow vy r0) col := by
      rintro col ⟨j, hj, hr, -⟩
      have := targetRow_inj hr (by omega) (by omega)
      omega
    have hcell : ∀ row col, cell (blitRow vx (targetRow vy r0) b acc).1 row col =
        (cell acc.1 row col ^^ decide (row = targetRow vy r0 ∧ rowMask vx b 8 col)) := h1
    have hflag : (blitRow vx (targetRow vy r0) b acc).2 = (acc.2 ||
        decide (rowHits acc.1 vx (targetRow vy r0) b 8)) := h2
    refine ⟨fun row col => ?_, ?_⟩
    · rw [blitRows, ih1, hcell, Bool.xor_assoc]
      congr 1
      by_cases hr : row = targetRow vy r0
      · subst hr
        simp [hm, hnew]
      · simp [hm, hr]
    · rw [blitRows, ih2, hflag, Bool.or_assoc]
      refine congrArg (acc.2 || ·) ?_
      rw [Bool.eq_iff_iff, Bool.or_eq_true]
      simp only [decide_eq_true_eq, hm]
      constructor
      · rintro (⟨k, hk, hb, hl⟩ | ⟨row, col, hs, hl⟩)
        · exact ⟨targetRow vy r0, targetCol vx k, .inl ⟨rfl, k, hk, hb, rfl⟩, hl⟩
        · have hr : row ≠ targetRow vy r0 := fun e => hnew col (e ▸ hs)
          rw [hcell] at hl
          simp only [hr, false_and, decide_false, Bool.xor_false] at hl
          exact ⟨row, col, .inr hs, hl⟩
      · rintro ⟨row, col, ⟨rfl, k, hk, hb, rfl⟩ | hs, hl⟩
        · exact .inl ⟨k, hk, hb, hl⟩
        · have hr : row ≠ targetRow vy r0 := fun e => hnew col (e ▸ hs)
          refine .inr ⟨row, col, hs, ?_⟩
          rw [hcell]
          simp only [hr, false_and, decide_false, Bool.xor_false]
          exact hl

open Classical in
/-- The framebuffer after a sprite of at most 32 rows (R217). -/
theorem cell_drawSprite (fb : Framebuffer) (vx vy : Byte) (rows : List Byte) (h : rows.length ≤ 32) (row : Fin 32)
    (col : Fin 64) :
    cell (drawSprite fb vx vy rows).1 row col = (cell fb row col ^^ decide (spriteMask vx vy rows 0 row col)) :=
  (blitRows_eq vx vy rows 0 (fb, false) h).1 row col

/-- A sprite of at most 32 rows collides exactly when one of its set bits lands on a lit cell (R216). -/
theorem collided_drawSprite (fb : Framebuffer) (vx vy : Byte) (rows : List Byte) (h : rows.length ≤ 32) :
    (drawSprite fb vx vy rows).2 = true ↔
      ∃ row col, spriteMask vx vy rows 0 row col ∧ cell fb row col = true := by
  classical
  rw [drawSprite, (blitRows_eq vx vy rows 0 (fb, false) h).2]
  simp

/-- Where the sprite of a Draw lands, in the terms of the statements: RAM bytes, row and column offsets. -/
theorem spriteMask_spriteRows_iff (s : State) (vx vy : Byte) (n : Nibble) (row : Fin 32) (col : Fin 64) :
    spriteMask vx vy (s.spriteRows n) 0 row col ↔ s.spriteCovers vx vy n.toNat row col := by
  simp only [spriteMask, State.spriteCovers, rowMask, State.spriteRows, Memory.length_readRun, Memory.getElem_readRun,
    spriteBit, targetRow, targetCol, Fin.ext_iff, Fin.val_ofNat, State.dataAddr_eq, Nat.add_zero, Nat.zero_add]
  constructor
  · rintro ⟨j, hj, hr, k, hk, hb, hc⟩
    exact ⟨j, k, hj, hk, hb, hr, hc.symm⟩
  · rintro ⟨j, k, hj, hk, hb, hr, hc⟩
    exact ⟨j, hj, hr, k, hk, hb, hc.symm⟩

@[simp] theorem State.length_spriteRows (s : State) (n : Nibble) : (s.spriteRows n).length = n.toNat :=
  Memory.length_readRun _ _ _

end Sys2Proof.Machine
end

