-- ==== Sys2Proof/Laws/Frame.lean ====
section
/-! SUPPORT. What each update of the state leaves alone, one lemma per update, in the terms of `Frame`; a meaning's frame is the
frame of the update it makes. -/

namespace Sys2Proof.Machine

/-- Nothing changes from a state to itself. -/
theorem Frame.refl (p : Footprint) (s : State) : Frame p s s :=
  ⟨fun _ _ => rfl, fun _ => rfl, fun _ => rfl, fun _ => rfl, fun _ => rfl, fun _ => rfl, fun _ => rfl, fun _ => rfl,
    fun _ => rfl, fun _ _ => rfl, rfl, rfl, rfl, rfl⟩

/-- Two changes inside a footprint, one after the other, stay inside it. -/
theorem Frame.trans {p : Footprint} {s t u : State} (h : Frame p s t) (g : Frame p t u) : Frame p s u :=
  ⟨fun r hr => (g.regs r hr).trans (h.regs r hr), fun e => (g.i e).trans (h.i e), fun e => (g.pc e).trans (h.pc e),
    fun e => (g.sp e).trans (h.sp e), fun e => (g.stk e).trans (h.stk e), fun e => (g.dt e).trans (h.dt e),
    fun e => (g.st e).trans (h.st e), fun e => (g.fb e).trans (h.fb e), fun e => (g.status e).trans (h.status e),
    fun a ha => (g.mem a ha).trans (h.mem a ha), g.keys.trans h.keys, g.rnd.trans h.rnd, g.inputs.trans h.inputs,
    g.boundary.trans h.boundary⟩

/-- A footprint inside another: every register and address of the first is in the second, and every flag of the first is
set in the second. -/
structure Footprint.Sub (p q : Footprint) : Prop where
  regs : ∀ r, r ∈ p.regs → r ∈ q.regs
  mem : ∀ a, a ∈ p.mem → a ∈ q.mem
  i : p.i = true → q.i = true
  pc : p.pc = true → q.pc = true
  sp : p.sp = true → q.sp = true
  stk : p.stk = true → q.stk = true
  dt : p.dt = true → q.dt = true
  st : p.st = true → q.st = true
  fb : p.fb = true → q.fb = true
  status : p.status = true → q.status = true

theorem eq_false_of_imp {a b : Bool} (h : a = true → b = true) (hb : b = false) : a = false := by
  cases a <;> simp_all

/-- A larger footprint allows what a smaller one allows. -/
theorem Frame.weaken {p q : Footprint} {s t : State} (h : Frame p s t) (k : p.Sub q) : Frame q s t :=
  ⟨fun r hr => h.regs r (fun hp => hr (k.regs r hp)), fun e => h.i (eq_false_of_imp k.i e),
    fun e => h.pc (eq_false_of_imp k.pc e), fun e => h.sp (eq_false_of_imp k.sp e),
    fun e => h.stk (eq_false_of_imp k.stk e), fun e => h.dt (eq_false_of_imp k.dt e),
    fun e => h.st (eq_false_of_imp k.st e), fun e => h.fb (eq_false_of_imp k.fb e),
    fun e => h.status (eq_false_of_imp k.status e), fun a ha => h.mem a (fun hp => ha (k.mem a hp)), h.keys, h.rnd,
    h.inputs, h.boundary⟩

theorem frame_setV (s : State) (x : Nibble) (b : Byte) : Frame { regs := [x] } s (s.setV x b) := by
  refine { Frame.refl { regs := [x] } s with regs := fun r hr => ?_ }
  rw [State.getV_setV, if_neg (by simpa using hr)]

theorem frame_flagThenResult (s : State) (x : Nibble) (c : Bool) (b : Byte) :
    Frame { regs := [x, 15] } s (s.flagThenResult x c b) := by
  refine { Frame.refl { regs := [x, 15] } s with regs := fun r hr => ?_ }
  simp only [List.mem_cons, List.not_mem_nil, or_false, not_or] at hr
  rw [State.getV_flagThenResult, if_neg hr.1, if_neg hr.2]

theorem frame_setFlag (s : State) (c : Bool) : Frame { regs := [15] } s (s.setFlag c) := frame_setV s 15 (flagByte c)

theorem frame_setI (s : State) (w : Word) : Frame { i := true } s (s.setI w) :=
  { Frame.refl { i := true } s with i := fun e => by simp at e }

theorem frame_setPc (s : State) (w : Word) : Frame { pc := true } s (s.setPc w) :=
  { Frame.refl { pc := true } s with pc := fun e => by simp at e }

theorem frame_advance (s : State) : Frame { pc := true } s s.advance := frame_setPc s (s.pc + 2)

theorem frame_skipIf (s : State) (c : Bool) : Frame { pc := true } s (s.skipIf c) := frame_setPc s _

theorem frame_setDt (s : State) (b : Byte) : Frame { dt := true } s (s.setDt b) :=
  { Frame.refl { dt := true } s with dt := fun e => by simp at e }

theorem frame_setSt (s : State) (b : Byte) : Frame { st := true } s (s.setSt b) :=
  { Frame.refl { st := true } s with st := fun e => by simp at e }

theorem frame_setFb (s : State) (f : Framebuffer) : Frame { fb := true } s (s.setFb f) :=
  { Frame.refl { fb := true } s with fb := fun e => by simp at e }

theorem frame_setStatus (s : State) (x : Status) : Frame { status := true } s (s.setStatus x) :=
  { Frame.refl { status := true } s with status := fun e => by simp at e }

theorem frame_raise (s : State) (c : Cause) (p n : Word) : Frame { status := true } s (s.raise c p n) :=
  frame_setStatus s _

theorem frame_raiseExec (s : State) (c : Cause) (n : Word) : Frame { status := true } s (s.raiseExec c n) :=
  frame_setStatus s _

theorem frame_raiseBounds (s : State) : Frame { status := true } s s.raiseBounds := frame_setStatus s _

/-- A return: `pc` and `SP`, and no stack entry. -/
theorem frame_pop (s : State) (w : Word) : Frame { pc := true, sp := true } s (s.pop.setPc w) :=
  { Frame.refl { pc := true, sp := true } s with pc := fun e => by simp at e, sp := fun e => by simp at e }

/-- A call: `pc`, `SP` and the stack. -/
theorem frame_push (s : State) (w p : Word) (h : s.sp.val ≠ 16) :
    Frame { pc := true, sp := true, stk := true } s ((s.push w h).setPc p) :=
  { Frame.refl { pc := true, sp := true, stk := true } s with
    pc := fun e => by simp at e, sp := fun e => by simp at e, stk := fun e => by simp at e }

/-- A tick: the two timers. -/
theorem frame_ticks (s : State) (n : Nat) : Frame { dt := true, st := true } s (s.ticks n) :=
  { Frame.refl { dt := true, st := true } s with dt := fun e => by simp at e, st := fun e => by simp at e }

/-- Replacing the RAM by one that reads alike outside the given addresses. -/
theorem frame_setMem (s : State) (m : Memory) (l : List Nat)
    (h : ∀ a, a ∉ l → Memory.read m a = Memory.read s.mem a) : Frame { mem := l } s (s.setMem m) :=
  { Frame.refl { mem := l } s with mem := h }

/-- A store of a run of bytes at the data address: those bytes and no others, in every memory. -/
theorem frame_store (s : State) (bs : List Byte) :
    Frame { mem := s.dataAddrs bs.length } s (s.setMem (Memory.writeRun s.mem (s.dataAddr 0) bs)) := by
  refine frame_setMem s _ _ fun a ha => ?_
  apply Memory.read_writeRun_outside
  simp only [State.dataAddrs, List.mem_map, List.mem_range, State.dataAddr_eq, not_exists, not_and] at ha
  simp only [State.dataAddr_eq, Nat.add_zero]
  by_contra hn
  exact ha (a - s.i.toNat) (by omega) (by omega)

theorem mem_regsThrough {x r : Nibble} : r ∈ regsThrough x ↔ r.toNat ≤ x.toNat := mem_regsThrough_iff rfl

/-- Replacing the register file by one that holds the same outside the given registers. -/
theorem frame_setAllV (s : State) (v : Vector Byte 16) (l : List Nibble)
    (h : ∀ r, r ∉ l → (s.setAllV v).getV r = s.getV r) : Frame { regs := l } s (s.setAllV v) :=
  { Frame.refl { regs := l } s with regs := h }

/-- Load-registers: the registers up to `x`. -/
theorem frame_loadedRegs (s : State) (x : Nibble) :
    Frame { regs := regsThrough x } s (s.setAllV (s.loadedRegs x)) := by
  refine frame_setAllV s _ _ fun r hr => ?_
  rw [State.getV_setAllV_loadedRegs, if_neg (fun h => hr (mem_regsThrough.mpr h))]

end Sys2Proof.Machine
end

