-- ==== Sys2Proof/Laws/PerInstr.lean ====
section
/-! SUPPORT. One lemma per instruction, about the instruction as syntax: the fixed bits of its encoding are the ones its row of
the opcode map gives (spec/30_encoding.md R100, R102), for every operand. -/

namespace Sys2Proof.Laws

/-- The row of the instruction accepts its encoding. -/
def FixedBits.Statement (i : Instr) : Prop := i.row.accepts (encode i) = true

theorem FixedBits.clear :
    FixedBits.Statement .clear :=
  (accepts_FFFF _ _).mpr rfl

theorem FixedBits.ret :
    FixedBits.Statement .ret :=
  (accepts_FFFF _ _).mpr rfl

theorem FixedBits.jump (nnn : Addr12) :
    FixedBits.Statement (.jump nnn) :=
  (accepts_F000 _ 1).mpr (fieldOp_wordA 1 nnn)

theorem FixedBits.call (nnn : Addr12) :
    FixedBits.Statement (.call nnn) :=
  (accepts_F000 _ 2).mpr (fieldOp_wordA 2 nnn)

theorem FixedBits.skipEqImm (x : Nibble) (kk : Byte) :
    FixedBits.Statement (.skipEqImm x kk) :=
  (accepts_F000 _ 3).mpr (fieldOp_wordXK 3 x kk)

theorem FixedBits.skipNeqImm (x : Nibble) (kk : Byte) :
    FixedBits.Statement (.skipNeqImm x kk) :=
  (accepts_F000 _ 4).mpr (fieldOp_wordXK 4 x kk)

theorem FixedBits.skipEqReg (x : Nibble) (y : Nibble) :
    FixedBits.Statement (.skipEqReg x y) :=
  (accepts_F00F _ 5 0).mpr ⟨fieldOp_wordXYN 5 x y 0, fieldN_wordXYN 5 x y 0⟩

theorem FixedBits.loadImm (x : Nibble) (kk : Byte) :
    FixedBits.Statement (.loadImm x kk) :=
  (accepts_F000 _ 6).mpr (fieldOp_wordXK 6 x kk)

theorem FixedBits.addImm (x : Nibble) (kk : Byte) :
    FixedBits.Statement (.addImm x kk) :=
  (accepts_F000 _ 7).mpr (fieldOp_wordXK 7 x kk)

theorem FixedBits.loadReg (x : Nibble) (y : Nibble) :
    FixedBits.Statement (.loadReg x y) :=
  (accepts_F00F _ 8 0).mpr ⟨fieldOp_wordXYN 8 x y 0, fieldN_wordXYN 8 x y 0⟩

theorem FixedBits.orReg (x : Nibble) (y : Nibble) :
    FixedBits.Statement (.orReg x y) :=
  (accepts_F00F _ 8 1).mpr ⟨fieldOp_wordXYN 8 x y 1, fieldN_wordXYN 8 x y 1⟩

theorem FixedBits.andReg (x : Nibble) (y : Nibble) :
    FixedBits.Statement (.andReg x y) :=
  (accepts_F00F _ 8 2).mpr ⟨fieldOp_wordXYN 8 x y 2, fieldN_wordXYN 8 x y 2⟩

theorem FixedBits.xorReg (x : Nibble) (y : Nibble) :
    FixedBits.Statement (.xorReg x y) :=
  (accepts_F00F _ 8 3).mpr ⟨fieldOp_wordXYN 8 x y 3, fieldN_wordXYN 8 x y 3⟩

theorem FixedBits.addReg (x : Nibble) (y : Nibble) :
    FixedBits.Statement (.addReg x y) :=
  (accepts_F00F _ 8 4).mpr ⟨fieldOp_wordXYN 8 x y 4, fieldN_wordXYN 8 x y 4⟩

theorem FixedBits.subReg (x : Nibble) (y : Nibble) :
    FixedBits.Statement (.subReg x y) :=
  (accepts_F00F _ 8 5).mpr ⟨fieldOp_wordXYN 8 x y 5, fieldN_wordXYN 8 x y 5⟩

theorem FixedBits.shiftRight (x : Nibble) (y : Nibble) :
    FixedBits.Statement (.shiftRight x y) :=
  (accepts_F00F _ 8 6).mpr ⟨fieldOp_wordXYN 8 x y 6, fieldN_wordXYN 8 x y 6⟩

theorem FixedBits.subNegated (x : Nibble) (y : Nibble) :
    FixedBits.Statement (.subNegated x y) :=
  (accepts_F00F _ 8 7).mpr ⟨fieldOp_wordXYN 8 x y 7, fieldN_wordXYN 8 x y 7⟩

theorem FixedBits.shiftLeft (x : Nibble) (y : Nibble) :
    FixedBits.Statement (.shiftLeft x y) :=
  (accepts_F00F _ 8 14).mpr ⟨fieldOp_wordXYN 8 x y 14, fieldN_wordXYN 8 x y 14⟩

theorem FixedBits.skipNeqReg (x : Nibble) (y : Nibble) :
    FixedBits.Statement (.skipNeqReg x y) :=
  (accepts_F00F _ 9 0).mpr ⟨fieldOp_wordXYN 9 x y 0, fieldN_wordXYN 9 x y 0⟩

theorem FixedBits.loadAddress (nnn : Addr12) :
    FixedBits.Statement (.loadAddress nnn) :=
  (accepts_F000 _ 10).mpr (fieldOp_wordA 10 nnn)

theorem FixedBits.jumpIndexed (nnn : Addr12) :
    FixedBits.Statement (.jumpIndexed nnn) :=
  (accepts_F000 _ 11).mpr (fieldOp_wordA 11 nnn)

theorem FixedBits.random (x : Nibble) (kk : Byte) :
    FixedBits.Statement (.random x kk) :=
  (accepts_F000 _ 12).mpr (fieldOp_wordXK 12 x kk)

theorem FixedBits.draw (x : Nibble) (y : Nibble) (n : Nibble) :
    FixedBits.Statement (.draw x y n) :=
  (accepts_F000 _ 13).mpr (fieldOp_wordXYN 13 x y n)

theorem FixedBits.skipIfPressed (x : Nibble) :
    FixedBits.Statement (.skipIfPressed x) :=
  (accepts_F0FF _ 14 158).mpr ⟨fieldOp_wordXK 14 x 158, fieldKk_wordXK 14 x 158⟩

theorem FixedBits.skipIfNotPressed (x : Nibble) :
    FixedBits.Statement (.skipIfNotPressed x) :=
  (accepts_F0FF _ 14 161).mpr ⟨fieldOp_wordXK 14 x 161, fieldKk_wordXK 14 x 161⟩

theorem FixedBits.loadDelay (x : Nibble) :
    FixedBits.Statement (.loadDelay x) :=
  (accepts_F0FF _ 15 7).mpr ⟨fieldOp_wordXK 15 x 7, fieldKk_wordXK 15 x 7⟩

theorem FixedBits.loadKey (x : Nibble) :
    FixedBits.Statement (.loadKey x) :=
  (accepts_F0FF _ 15 10).mpr ⟨fieldOp_wordXK 15 x 10, fieldKk_wordXK 15 x 10⟩

theorem FixedBits.setDelay (x : Nibble) :
    FixedBits.Statement (.setDelay x) :=
  (accepts_F0FF _ 15 21).mpr ⟨fieldOp_wordXK 15 x 21, fieldKk_wordXK 15 x 21⟩

theorem FixedBits.setSound (x : Nibble) :
    FixedBits.Statement (.setSound x) :=
  (accepts_F0FF _ 15 24).mpr ⟨fieldOp_wordXK 15 x 24, fieldKk_wordXK 15 x 24⟩

theorem FixedBits.addToIndex (x : Nibble) :
    FixedBits.Statement (.addToIndex x) :=
  (accepts_F0FF _ 15 30).mpr ⟨fieldOp_wordXK 15 x 30, fieldKk_wordXK 15 x 30⟩

theorem FixedBits.loadFontAddress (x : Nibble) :
    FixedBits.Statement (.loadFontAddress x) :=
  (accepts_F0FF _ 15 41).mpr ⟨fieldOp_wordXK 15 x 41, fieldKk_wordXK 15 x 41⟩

theorem FixedBits.storeBcd (x : Nibble) :
    FixedBits.Statement (.storeBcd x) :=
  (accepts_F0FF _ 15 51).mpr ⟨fieldOp_wordXK 15 x 51, fieldKk_wordXK 15 x 51⟩

theorem FixedBits.storeRegisters (x : Nibble) :
    FixedBits.Statement (.storeRegisters x) :=
  (accepts_F0FF _ 15 85).mpr ⟨fieldOp_wordXK 15 x 85, fieldKk_wordXK 15 x 85⟩

theorem FixedBits.loadRegisters (x : Nibble) :
    FixedBits.Statement (.loadRegisters x) :=
  (accepts_F0FF _ 15 101).mpr ⟨fieldOp_wordXK 15 x 101, fieldKk_wordXK 15 x 101⟩

end Sys2Proof.Laws
end

