-- ==== Sys2Proof/Tests/Slice0.lean ====
section
/-! SUPPORT. Tests of the model. Part 1: ill-formed words. Part 2: words written out from the patterns of spec/30_encoding.md
R100. Part 3: one step each, with the expected values of spec/95_test_vectors.md, whose vector each comment names. Part 4:
for every statement with hypotheses, a concrete state and operands that meet them, at the boundary values of its clauses. -/

namespace Sys2Proof.Tests

open Sys2Proof Sys2Proof.Machine

/-! ### Part 1. Well-formed words -/

/-- Group 0 matches all sixteen bits (R96, R102; T-DEC-3 to 7). -/
theorem test_illFormed_group0 :
    [0x0000, 0x01E0, 0x0FEE, 0x00E1, 0x0200, 0x00EF].all (fun w => !wellFormedWord w) = true := by decide

/-- Groups 5 and 9 want a low nibble of 0 (R102; T-DEC-13, 14, 22). -/
theorem test_illFormed_groups59 :
    [0x5121, 0x512F, 0x9AB1, 0x9ABF].all (fun w => !wellFormedWord w) = true := by decide

/-- Group 8 has nine low nibbles (R97, R103; T-DEC-18, 20). -/
theorem test_illFormed_group8 :
    [0x8AB8, 0x8AB9, 0x8ABA, 0x8ABB, 0x8ABC, 0x8ABD, 0x8ABF].all (fun w => !wellFormedWord w) = true := by decide

/-- Group E has two low bytes (R98, R103; T-DEC-30, 31). -/
theorem test_illFormed_groupE :
    [0xE000, 0xE19F, 0xE1A0, 0xE1A2].all (fun w => !wellFormedWord w) = true := by decide

/-- Group F has nine low bytes (R99, R103; T-DEC-41 to 43). -/
theorem test_illFormed_groupF :
    [0xF000, 0xF375, 0xFFFF, 0xF30B, 0xF385].all (fun w => !wellFormedWord w) = true := by decide

/-- One legal word of every group. -/
theorem test_wellFormed_words :
    [0x00E0, 0x1000, 0x2FFF, 0x3A7F, 0x4A7F, 0x5120, 0x6305, 0x7F01].all wellFormedWord = true ∧
    [0x8ABE, 0x9AB0, 0xA000, 0xBFFE, 0xCFFF, 0xD120, 0xE1A1, 0xFF65].all wellFormedWord = true := by decide

/-! ### Part 2. Decoding and encoding, a word of every instruction -/

theorem test_decode_flow :
    decode 0x00E0 = .instr .clear ∧ decode 0x00EE = .instr .ret ∧ decode 0x1ABC = .instr (.jump 0xABC) ∧
    decode 0x2FFF = .instr (.call 0xFFF) ∧ decode 0x3A7F = .instr (.skipEqImm 10 0x7F) ∧
    decode 0x4A7F = .instr (.skipNeqImm 10 0x7F) ∧ decode 0x5120 = .instr (.skipEqReg 1 2) ∧
    decode 0x9AB0 = .instr (.skipNeqReg 10 11) ∧ decode 0xBFFE = .instr (.jumpIndexed 0xFFE) := by decide

theorem test_decode_arith :
    decode 0x6305 = .instr (.loadImm 3 0x05) ∧ decode 0x7F01 = .instr (.addImm 15 0x01) ∧
    decode 0x8AB0 = .instr (.loadReg 10 11) ∧ decode 0x8AB1 = .instr (.orReg 10 11) ∧
    decode 0x8AB2 = .instr (.andReg 10 11) ∧ decode 0x8AB3 = .instr (.xorReg 10 11) ∧
    decode 0x8124 = .instr (.addReg 1 2) ∧ decode 0x8125 = .instr (.subReg 1 2) ∧
    decode 0x8126 = .instr (.shiftRight 1 2) ∧ decode 0x8AB7 = .instr (.subNegated 10 11) ∧
    decode 0x8ABE = .instr (.shiftLeft 10 11) ∧ decode 0xCFFF = .instr (.random 15 0xFF) := by decide

theorem test_decode_memory_display_io :
    decode 0xA2F0 = .instr (.loadAddress 0x2F0) ∧ decode 0xD015 = .instr (.draw 0 1 5) ∧
    decode 0xE19E = .instr (.skipIfPressed 1) ∧ decode 0xE1A1 = .instr (.skipIfNotPressed 1) ∧
    decode 0xF007 = .instr (.loadDelay 0) ∧ decode 0xF30A = .instr (.loadKey 3) ∧
    decode 0xF315 = .instr (.setDelay 3) ∧ decode 0xF318 = .instr (.setSound 3) ∧
    decode 0xF31E = .instr (.addToIndex 3) ∧ decode 0xF329 = .instr (.loadFontAddress 3) ∧
    decode 0xF333 = .instr (.storeBcd 3) ∧ decode 0xF355 = .instr (.storeRegisters 3) ∧
    decode 0xFF65 = .instr (.loadRegisters 15) := by decide

theorem test_decode_fails :
    [0x0000, 0x01E0, 0x0FEE, 0x00E1, 0x0200, 0x5121, 0x512F, 0x8AB8, 0x8ABF].all
      (fun w => decode w = .decodeFailure) = true ∧
    [0x9AB1, 0xE000, 0xE19F, 0xF000, 0xF375, 0xFFFF].all (fun w => decode w = .decodeFailure) = true := by decide

theorem test_encode :
    encode .ret = 0x00EE ∧ encode (.jump 0xABC) = 0x1ABC ∧ encode (.skipEqReg 1 2) = 0x5120 ∧
    encode (.loadImm 3 5) = 0x6305 ∧ encode (.shiftLeft 10 11) = 0x8ABE ∧ encode (.draw 0 1 5) = 0xD015 ∧
    encode (.skipIfPressed 1) = 0xE19E ∧ encode (.loadRegisters 15) = 0xFF65 := by decide

/-- High byte first, two bytes an instruction, and the rest untouched (R66, R90). -/
theorem test_decodeBytes :
    decodeBytes [0x63, 0x05, 0x12] = .instr (.loadImm 3 5) [0x12] ∧
    decodeBytes [0x01, 0xE0] = .decodeFailure 0x01E0 ∧ decodeBytes [0x63] = .tooShort ∧
    encodeBytes (.loadImm 3 5) = [0x63, 0x05] := by decide

theorem test_decodeTableWord :
    decodeTableWord 16 0x6305 = some (.loadImm 3 5) ∧ decodeTableWord 16 0x01E0 = none := by decide

/-! ### Part 3. One step -/

/-- A boundary at which the core may step. -/
def go (ticks : Nat) (keys : BitVec 16) (rnd : Byte) : Input := ⟨false, true, ticks, keys, rnd, none⟩

/-- A boundary at which the host does not let the core step. -/
def idle (ticks : Nat) : Input := ⟨false, false, ticks, 0, 0, none⟩

/-- A boundary at which reset is held. -/
def held (load : Option (Addr12 × Byte)) : Input := ⟨true, false, 0, 0, 0, load⟩

/-- The reset state with a word at 0x200, about to step with no tick, no key and a random byte of 0. -/
def at200 (w : Word) : State := { State.reset.placeWord w with inputs := [go 0 0 0] }

/-- The state with other inputs. -/
def present (l : List Input) (s : State) : State := { s with inputs := l }

/-- The state with bytes stored. -/
def store (a : Nat) (bs : List Byte) (s : State) : State := s.setMem (Memory.writeRun s.mem a bs)

/-- The state with a register set. -/
def reg (x : Nibble) (b : Byte) (s : State) : State := s.setV x b

/-- The state with some frames on the stack, each returning to 0x0204. -/
def frames (n : Fin 17) (s : State) : State := { s with sp := n, stk := Vector.replicate 16 0x0204 }

/-- The next state, if the step gives one. -/
def after (s : State) : Option State :=
  match step s with
  | .next t => some t
  | _ => none

/-- T-DRW-16: every cell lit. -/
theorem test_clear :
    (after (((at200 0x00E0).setFb (Vector.replicate 32 0xFFFFFFFFFFFFFFFF)).setV 15 1)).map
      (fun t => (t.fb, t.getV 15, t.pc)) = some (Vector.replicate 32 0, 1, 0x202) := by decide

/-- T-CF-5. -/
theorem test_ret : (after (frames 1 (at200 0x00EE))).map (fun t => (t.pc, t.sp)) = some (0x204, 0) := by decide

/-- T-CF-6. -/
theorem test_ret_underflow :
    (after (at200 0x00EE)).map (fun t => (t.status, t.pc)) = some (.faulted .stackUnderflow 0x200 0, 0x202) := by decide

/-- T-CF-1. -/
theorem test_jump : (after (at200 0x1ABC)).map (fun t => t.pc) = some 0xABC := by decide

/-- T-CF-8: the sixteenth frame. -/
theorem test_call :
    (after (frames 15 (at200 0x2300))).map (fun t => (t.pc, t.sp, t.stk[15])) = some (0x300, 16, 0x202) := by decide

/-- T-CF-7. -/
theorem test_call_overflow :
    (after (frames 16 (at200 0x2300))).map (fun t => (t.status, t.pc, t.sp)) =
      some (.faulted .stackOverflow 0x200 16, 0x202, 16) := by decide

/-- T-CF-13, 14. -/
theorem test_skipEqImm :
    (after (reg 3 0x2A (at200 0x332A))).map (fun t => t.pc) = some 0x204 ∧
    (after (reg 3 0x2B (at200 0x332A))).map (fun t => t.pc) = some 0x202 := by decide

/-- T-CF-15, 16. -/
theorem test_skipNeqImm :
    (after (reg 3 0x2A (at200 0x432A))).map (fun t => t.pc) = some 0x202 ∧
    (after (reg 3 0x2B (at200 0x432A))).map (fun t => t.pc) = some 0x204 := by decide

/-- T-CF-17, 18. -/
theorem test_skipEqReg :
    (after (reg 2 7 (reg 1 7 (at200 0x5120)))).map (fun t => t.pc) = some 0x204 ∧
    (after (reg 2 8 (reg 1 7 (at200 0x5120)))).map (fun t => t.pc) = some 0x202 := by decide

/-- T-CF-20, 21. -/
theorem test_skipNeqReg :
    (after (reg 2 8 (reg 1 7 (at200 0x9120)))).map (fun t => t.pc) = some 0x204 ∧
    (after (reg 4 9 (at200 0x9440))).map (fun t => t.pc) = some 0x202 := by decide

/-- T-ALU-2: `VF` is a register like any other. -/
theorem test_loadImm : (after (reg 15 1 (at200 0x6FAB))).map (fun t => (t.getV 15, t.pc)) = some (0xAB, 0x202) := by
  decide

/-- T-ALU-3: wraps, and no flag. -/
theorem test_addImm :
    (after (reg 15 1 (reg 0 0xFE (at200 0x7005)))).map (fun t => (t.getV 0, t.getV 15)) = some (0x03, 1) := by decide

/-- T-ALU-6. -/
theorem test_loadReg :
    (after (reg 4 0x9C (reg 3 1 (at200 0x8340)))).map (fun t => (t.getV 3, t.getV 4)) = some (0x9C, 0x9C) := by decide

/-- T-ALU-7. -/
theorem test_orReg :
    (after (reg 15 1 (reg 2 0x3C (reg 1 0xF0 (at200 0x8121))))).map (fun t => (t.getV 1, t.getV 15)) = some (0xFC, 1) := by
  decide

/-- T-ALU-8. -/
theorem test_andReg :
    (after (reg 15 1 (reg 2 0x3C (reg 1 0xF0 (at200 0x8122))))).map (fun t => (t.getV 1, t.getV 15)) = some (0x30, 1) := by
  decide

/-- T-ALU-9. -/
theorem test_xorReg :
    (after (reg 15 1 (reg 2 0x3C (reg 1 0xF0 (at200 0x8123))))).map (fun t => (t.getV 1, t.getV 15)) = some (0xCC, 1) := by
  decide

/-- T-ALU-11: the source's 200 + 100. -/
theorem test_addReg :
    (after (reg 2 100 (reg 1 200 (at200 0x8124)))).map (fun t => (t.getV 1, t.getV 15)) = some (44, 1) := by decide

/-- T-ALU-16: the destination `VF` keeps the sum. -/
theorem test_addReg_flagRegister : (after (reg 1 100 (reg 15 200 (at200 0x8F14)))).map (fun t => t.getV 15) = some 44 := by
  decide

/-- T-ALU-20. -/
theorem test_subReg :
    (after (reg 2 10 (reg 1 3 (at200 0x8125)))).map (fun t => (t.getV 1, t.getV 15)) = some (249, 0) := by decide

/-- T-ALU-21: equal operands are a borrow in this machine's strict comparison. -/
theorem test_subReg_equal :
    (after (reg 15 1 (reg 2 5 (reg 1 5 (at200 0x8125))))).map (fun t => (t.getV 1, t.getV 15)) = some (0, 0) := by decide

/-- T-ALU-27: one register, `y` ignored. -/
theorem test_shiftRight :
    (after (reg 2 0x55 (reg 1 0x03 (at200 0x8126)))).map (fun t => (t.getV 1, t.getV 2, t.getV 15)) =
      some (0x01, 0x55, 1) := by decide

/-- T-ALU-30: the destination `VF` keeps the result. -/
theorem test_shiftRight_flagRegister : (after (reg 15 7 (at200 0x8F06))).map (fun t => t.getV 15) = some 3 := by decide

/-- T-ALU-24. -/
theorem test_subNegated :
    (after (reg 2 10 (reg 1 3 (at200 0x8127)))).map (fun t => (t.getV 1, t.getV 15)) = some (7, 1) := by decide

/-- T-ALU-25. -/
theorem test_subNegated_wraps :
    (after (reg 2 3 (reg 1 10 (at200 0x8127)))).map (fun t => (t.getV 1, t.getV 15)) = some (249, 0) := by decide

/-- T-ALU-31. -/
theorem test_shiftLeft :
    (after (reg 2 0x55 (reg 1 0x81 (at200 0x812E)))).map (fun t => (t.getV 1, t.getV 2, t.getV 15)) =
      some (0x02, 0x55, 1) := by decide

/-- T-ALU-34. -/
theorem test_shiftLeft_flagRegister : (after (reg 15 0xC0 (at200 0x8FFE))).map (fun t => t.getV 15) = some 0x80 := by
  decide

/-- T-IDX-2. -/
theorem test_loadAddress : (after (at200 0xAFFF)).map (fun t => (t.i, t.pc)) = some (0xFFF, 0x202) := by decide

/-- T-CF-10, the largest target. -/
theorem test_jumpIndexed :
    (after (reg 0 0xFF (at200 0xBFFF))).map (fun t => (t.pc, t.status)) = some (0x10FE, .running) := by decide

/-- T-CF-12: always `V[0]`. -/
theorem test_jumpIndexed_register : (after (reg 2 8 (at200 0xB300))).map (fun t => t.pc) = some 0x300 := by decide

/-- T-ALU-35. -/
theorem test_random : (after (present [go 0 0 0xA7] (at200 0xC30F))).map (fun t => t.getV 3) = some 0x07 := by decide

/-- T-DRW-4: both coordinates wrap. -/
theorem test_draw :
    (after (((reg 1 100 (reg 0 200 (store 0x300 [0x81] (at200 0xD011)))).setI 0x300))).map (fun t => (t.fb, t.getV 15)) =
      some ((Vector.replicate 32 0).set 4 0x8100, 0) := by decide

/-- T-DRW-5: one cell cleared, one set, a collision. -/
theorem test_draw_collision :
    (after (((store 0x300 [0xC0] (at200 0xD011)).setI 0x300).setFb ((Vector.replicate 32 0).set 0 1))).map
      (fun t => (t.fb, t.getV 15)) = some ((Vector.replicate 32 0).set 0 2, 1) := by decide

/-- T-KEY-1, 5: the whole byte is tested. -/
theorem test_skipIfPressed :
    (after (present [go 0 0x0084 0] (reg 5 7 (at200 0xE59E)))).map (fun t => t.pc) = some 0x204 ∧
    (after (present [go 0 0x0080 0] (reg 5 0x17 (at200 0xE59E)))).map (fun t => t.pc) = some 0x202 := by decide

/-- T-KEY-3, 6. -/
theorem test_skipIfNotPressed :
    (after (present [go 0 0x0084 0] (reg 5 7 (at200 0xE5A1)))).map (fun t => t.pc) = some 0x202 ∧
    (after (present [go 0 0xFFFF 0] (reg 5 0x17 (at200 0xE5A1)))).map (fun t => t.pc) = some 0x204 := by decide

/-- T-TMR-1. -/
theorem test_loadDelay : (after ((at200 0xF407).setDt 0x3C)).map (fun t => (t.getV 4, t.dt)) = some (0x3C, 0x3C) := by
  decide

/-- R133 (a): a tick before the step is seen by it. -/
theorem test_loadDelay_tick : (after (present [go 1 0 0] ((at200 0xF407).setDt 0x3C))).map (fun t => t.getV 4) = some 0x3B := by
  decide

/-- T-KEY-7. -/
theorem test_loadKey :
    (after (present [go 0 0x0210 0] (at200 0xF30A))).map (fun t => (t.getV 3, t.pc, t.status)) =
      some (4, 0x202, .running) := by decide

/-- T-KEY-8. -/
theorem test_loadKey_waits :
    (after (reg 3 9 (at200 0xF30A))).map (fun t => (t.getV 3, t.pc, t.status)) = some (9, 0x202, .awaitKey 3) := by decide

/-- T-KEY-10. -/
theorem test_poll :
    (after (present [go 0 0x0210 0] ((at200 0).setStatus (.awaitKey 3)))).map (fun t => (t.getV 3, t.pc, t.status)) =
      some (4, 0x200, .running) := by decide

/-- T-TMR-2. -/
theorem test_setDelay : (after (reg 4 0x3C (at200 0xF415))).map (fun t => t.dt) = some 0x3C := by decide

/-- T-TMR-3. -/
theorem test_setSound : (after (reg 4 2 (at200 0xF418))).map (fun t => (t.st, t.tone)) = some (2, true) := by decide

/-- T-IDX-5: modulo 65536, no flag. -/
theorem test_addToIndex :
    (after (reg 2 1 ((at200 0xF21E).setI 0xFFFF))).map (fun t => (t.i, t.getV 15)) = some (0, 0) := by decide

/-- T-IDX-9, 10: the whole register. -/
theorem test_loadFontAddress :
    (after (reg 4 0x10 (at200 0xF429))).map (fun t => t.i) = some 0x50 ∧
    (after (reg 4 0xFF (at200 0xF429))).map (fun t => t.i) = some 0x4FB := by decide

/-- T-IDX-11: the source's 234. -/
theorem test_storeBcd :
    (after (reg 0 234 ((at200 0xF033).setI 0x300))).map (fun t => (Memory.readRun t.mem 0x300 3, t.i)) =
      some ([2, 3, 4], 0x300) := by decide

/-- T-IDX-17: nothing written. -/
theorem test_storeBcd_bounds :
    (after (reg 0 7 ((at200 0xF033).setI 0xFFE))).map (fun t => (t.status, t.mem)) =
      some (.faulted .boundsFailure 0x200 0x1000, (at200 0xF033).mem) := by decide

/-- T-IDX-18. -/
theorem test_storeRegisters :
    (after (reg 3 0x44 (reg 2 0x33 (reg 1 0x22 (reg 0 0x11 ((at200 0xF255).setI 0x300)))))).map
      (fun t => (Memory.readRun t.mem 0x300 4, t.i)) = some ([0x11, 0x22, 0x33, 0], 0x300) := by decide

/-- T-IDX-22. -/
theorem test_storeRegisters_bounds :
    (after ((at200 0xFF55).setI 0xFF1)).map (fun t => t.status) = some (.faulted .boundsFailure 0x200 0x1000) := by decide

/-- T-IDX-23. -/
theorem test_loadRegisters :
    (after (reg 2 1 (store 0x300 [0xAA, 0xBB, 0xCC] ((at200 0xF165).setI 0x300)))).map
      (fun t => (t.getV 0, t.getV 1, t.getV 2, t.i)) = some (0xAA, 0xBB, 0x01, 0x300) := by decide

/-- T-IDX-26: no wrap to address 0, and the recorded value. -/
theorem test_loadRegisters_bounds :
    (after ((at200 0xF065).setI 0xFFFF)).map (fun t => t.status) = some (.faulted .boundsFailure 0x200 0xFFFF) := by decide

/-- T-STEP-2, 3, 4: the fetch checks, parity first. -/
theorem test_fetchChecks :
    (after ((at200 0).setPc 0x201)).map (fun t => (t.status, t.pc)) = some (.faulted .pcMisaligned 0x201 0x201, 0x201) ∧
    (after ((at200 0).setPc 0x1000)).map (fun t => t.status) = some (.faulted .fetchBounds 0x1000 0x1000) ∧
    (after ((at200 0).setPc 0x10FD)).map (fun t => t.status) = some (.faulted .pcMisaligned 0x10FD 0x10FD) := by decide

/-- T-STEP-7. -/
theorem test_illegalWord :
    (after (at200 0)).map (fun t => (t.status, t.pc)) = some (.faulted .decodeFailure 0x200 0, 0x202) := by decide

/-- T-TMR-10: a Faulted core takes no tick. -/
theorem test_faulted_no_tick :
    (after (present [go 3 0 0] (((at200 0).setStatus (.faulted .decodeFailure 0x200 0)).setDt 5))).map (fun t => t.dt) =
      some 5 := by decide

/-- T-STEP-8: with no boundary left it is stuck. -/
theorem test_faulted_stuck :
    step (present [] ((at200 0).setStatus (.faulted .decodeFailure 0x200 0))) =
      .fault (.halted .decodeFailure 0x200 0) := rfl

/-- T-STEP-9, T-KEY-11: ticks while the core is not let step. -/
theorem test_idle_tick :
    (after (present [idle 1] ((((at200 0x6305).setStatus (.awaitKey 3)).setDt 2).setSt 1))).map
      (fun t => (t.dt, t.st, t.tone, t.pc)) = some (1, 0, false, 0x200) := by decide

/-- R52, R251: the fault outputs of T-CF-7, and of a core that is not Faulted. -/
theorem test_faultOutputs :
    (after (frames 16 (at200 0x2300))).map (fun t => (t.stFault, t.faultCause, t.faultPc, t.faultInfo)) =
      some (true, 2, 0x200, 16) ∧
    (after (at200 0xF30A)).map (fun t => (t.stAwaitKey, t.stRunning, t.faultCause, t.faultPc)) =
      some (true, false, 0, 0) := by decide

/-- T-RST-1. -/
theorem test_reset :
    (after (present [held none] (reg 3 9 (store 0x300 [0x77]
      (((frames 16 (at200 0)).setStatus (.faulted .stackOverflow 0x200 16)).setDt 4))))).map
      (fun t => (t.pc, t.getV 3, t.dt, t.sp, t.status, Memory.read t.mem 0x300)) =
      some (0x200, 0, 0, 0, .running, 0x77) := by decide

/-- R51: the loader port while reset is held. -/
theorem test_loader :
    (after (present [held (some (0x200, 0x60))] (at200 0))).map (fun t => Memory.read t.mem 0x200) = some 0x60 := by decide

/-- The first instruction after reset is the one the host places, whatever the free inputs are. -/
theorem test_withFetchWord :
    (after (State.reset.withFetchWord 16 0x6305)).map (fun t => (t.getV 3, t.pc)) = some (5, 0x202) := by decide

/-- A first step with nothing placed fetches 0x0000. -/
theorem test_reset_nothing_placed :
    (after State.reset).map (fun t => t.status) = some (.faulted .decodeFailure 0x200 0) := by decide

/-! ### Part 4. What meets the hypotheses of the statements -/

/-- A state that meets the invariant: the reset state's frames are none and its RAM may be any canonical one. -/
theorem inv_of {s : State} (hm : Memory.wf s.mem) (hp : s.pc.toNat ≤ 0x10FE) (hs : s.sp.val = 0) : s.Inv :=
  ⟨hm, hp, fun _ hj => by omega⟩

/-- A Faulted state. -/
def broken : State := (at200 0).setStatus (.faulted .decodeFailure 0x200 0)

/-- DecodedWordIsItsEncoding, DecoderFollowsTheOpcodeMap: a word that decodes. -/
theorem witness_decoded : decode 0xD015 = .instr (.draw 0 1 5) ∧ decode 0x00EE = .instr .ret := by decide

/-- FetchIsBigEndianAndInRange, AdvanceNeverWraps: the lowest and the highest address that can be fetched. -/
theorem witness_fetchable :
    ((at200 0).setPc 0).fetchable = true ∧ ((at200 0).setPc 0xFFE).fetchable = true := by decide

/-- StepRunsTheDecodedInstruction, IllegalWordIsDecodeFailure (second clause). -/
theorem witness_fetchEnabled :
    (at200 0x6305).FetchEnabled ∧ decode (at200 0x6305).fetchWord = .instr (.loadImm 3 5) ∧
    decode (at200 0x6305).fetchWord ≠ .decodeFailure := ⟨⟨⟨rfl, rfl, rfl⟩, by decide⟩, by decide, by decide⟩

/-- IllegalWordIsDecodeFailure (first clause). -/
theorem witness_illegalWord : (at200 0).FetchEnabled ∧ decode (at200 0).fetchWord = .decodeFailure :=
  ⟨⟨⟨rfl, rfl, rfl⟩, by decide⟩, by decide⟩

/-- FetchChecksRaise, OddPcComesOnlyFromJumps (first clause): odd below and above 4094. -/
theorem witness_oddPc :
    ((at200 0).setPc 1).StepEnabled ∧ ((at200 0).setPc 1).pc.toNat % 2 = 1 ∧
    ((at200 0).setPc 0x10FD).StepEnabled ∧ ((at200 0).setPc 0x10FD).pc.toNat % 2 = 1 :=
  ⟨⟨rfl, rfl, rfl⟩, by decide, ⟨rfl, rfl, rfl⟩, by decide⟩

/-- FetchChecksRaise (second clause): the lowest even `pc` that cannot be fetched, and the highest. -/
theorem witness_fetchBounds :
    ((at200 0).setPc 4096).StepEnabled ∧ ((at200 0).setPc 4096).pc.toNat % 2 = 0 ∧
    ((at200 0).setPc 4096).pc.toNat > 4094 ∧ ((at200 0).setPc 0xFFFE).pc.toNat % 2 = 0 ∧
    ((at200 0).setPc 0xFFFE).pc.toNat > 4094 := ⟨⟨rfl, rfl, rfl⟩, by decide, by decide, by decide, by decide⟩

/-- OddPcComesOnlyFromJumps (second clause), one for each of its three instructions. -/
theorem witness_oddJumps :
    (at200 0x1201).Inv ∧ (at200 0x1201).pc.toNat % 2 = 0 ∧
      (after (at200 0x1201)).map (fun t => t.pc.toNat % 2) = some 1 ∧
    (at200 0x2301).Inv ∧ (after (at200 0x2301)).map (fun t => t.pc.toNat % 2) = some 1 ∧
    (reg 0 1 (at200 0xB300)).Inv ∧ (after (reg 0 1 (at200 0xB300))).map (fun t => t.pc.toNat % 2) = some 1 :=
  ⟨inv_of (by decide) (by decide) rfl, by decide, by decide, inv_of (by decide) (by decide) rfl, by decide,
    inv_of (by decide) (by decide) rfl, by decide⟩

/-- FailuresArePrecise: running states that a step leaves Faulted, one for each phase that can fail. -/
theorem witness_failures :
    (at200 0).status = .running ∧
    (after ((at200 0).setPc 0x1000)).map (fun t => t.status) = some (.faulted .fetchBounds 0x1000 0x1000) ∧
    (after (at200 0)).map (fun t => t.status) = some (.faulted .decodeFailure 0x200 0) ∧
    (after (at200 0x00EE)).map (fun t => t.status) = some (.faulted .stackUnderflow 0x200 0) := by decide

/-- What an instruction leaves, as a status. -/
def statusAfter (i : Instr) (s : State) : Option Status :=
  match exec i s with
  | .next t => some t.status
  | _ => none

/-- FailuresArePrecise (the outputs): a state of each status, and a Faulted one of the first and the last code. -/
theorem witness_outputs :
    (at200 0).status = .running ∧ (at200 0).stFault = false ∧
    ((at200 0).setStatus (.awaitKey 15)).status = .awaitKey 15 ∧ ((at200 0).setStatus (.awaitKey 15)).stFault = false ∧
    broken.status = .faulted .decodeFailure 0x200 0 ∧
    ((at200 0).raise .pcMisaligned 0x201 0x201).status = .faulted .pcMisaligned 0x201 0x201 := by decide

/-- EachInstructionRaisesItsOwnCause: every instruction that can fail does. -/
theorem witness_causes :
    statusAfter .ret (at200 0) = some (.faulted .stackUnderflow 0x1FE 0) ∧
    statusAfter (.call 0x300) (frames 16 (at200 0)) = some (.faulted .stackOverflow 0x1FE 16) ∧
    statusAfter (.draw 0 1 1) ((at200 0).setI 0x1000) = some (.faulted .boundsFailure 0x1FE 0x1000) ∧
    statusAfter (.storeBcd 0) ((at200 0).setI 0xFFE) = some (.faulted .boundsFailure 0x1FE 0x1000) ∧
    statusAfter (.storeRegisters 1) ((at200 0).setI 0xFFF) = some (.faulted .boundsFailure 0x1FE 0x1000) ∧
    statusAfter (.loadRegisters 0) ((at200 0).setI 0xFFFF) = some (.faulted .boundsFailure 0x1FE 0xFFFF) ∧
    (at200 0).status = .running ∧ (frames 16 (at200 0)).status = .running ∧
    ((at200 0).setI 0xFFFF).status = .running := by decide

/-- OnlyAFaultedCoreStops: a Faulted core with no boundary to come, with one without reset, with one with reset. -/
theorem witness_faulted :
    broken.status = .faulted .decodeFailure 0x200 0 ∧ (present [] broken).inputs = [] ∧
    (present [idle 1] broken).inputs ≠ [] ∧ (present [idle 1] broken).sampled.rst = false ∧
    (present [held none] broken).sampled.rst = true := by decide

/-- OnlyAFaultedCoreStops (last clause): a step that faults. -/
theorem witness_stuck : ∃ f, step (present [] broken) = .fault f := ⟨_, rfl⟩

/-- TickCountsBothTimersDown, StoppedCoreOnlyTicks: running and waiting; a Faulted core passed by is in `witness_faulted`, reset
in `witness_reset`. -/
theorem witness_idle :
    (present [idle 1] (at200 0)).sampled.rst = false ∧ (present [idle 1] (at200 0)).sampled.run = false ∧
    (present [idle 1] (at200 0)).Safe ∧ (present [idle 1] (at200 0)).sampled.ticks = 1 ∧
    (present [idle 1] ((at200 0).setStatus (.awaitKey 3))).Safe := ⟨rfl, rfl, rfl, rfl, rfl⟩

/-- TimersOnlyFallUnlessSet: steps that raise a timer. -/
theorem witness_timers_rise :
    (after (reg 4 0x3C (at200 0xF415))).map (fun t => decide ((at200 0xF415).dt.toNat < t.dt.toNat)) = some true ∧
    (after (reg 4 2 (at200 0xF418))).map (fun t => decide ((at200 0xF418).st.toNat < t.st.toNat)) = some true := by decide

/-- ResetVectorIs200, ResetEventSetsEveryRegister: reset held, from a Faulted state and from a waiting one. -/
theorem witness_reset :
    (present [held none] broken).sampled.rst = true ∧ (present [held none] broken).sampled.load = none ∧
    (present [held none] ((at200 0).setStatus (.awaitKey 3))).sampled.rst = true ∧
    (present [held (some (0xFFF, 0x77))] broken).sampled.rst = true ∧
    (present [held (some (0xFFF, 0x77))] broken).sampled.load = some (0xFFF, 0x77) ∧
    0xFFE ≠ (0xFFF : Addr12).toNat := by decide

/-- LoaderWritesOnlyInReset: its two clauses, at the top of the RAM. -/
theorem witness_loader :
    Memory.wf (present [held (some (0xFFF, 0x77))] (at200 0)).mem ∧
    (present [held (some (0xFFF, 0x77))] (at200 0)).inputs = [held (some (0xFFF, 0x77))] ∧
    (held (some (0xFFF, 0x77))).rst = true ∧ (held (some (0xFFF, 0x77))).load = some (0xFFF, 0x77) ∧
    (idle 0).rst = false := by decide

/-- LaunchLoadsFontAndImage: a RAM that is not empty, the conventional font, the largest image and one byte more. -/
theorem witness_launch :
    Memory.wf [(0x100, 7)] ∧
    Config.conventionalFont.length = 80 ∧ (List.replicate 3584 (0 : Byte)).length ≤ 3584 ∧
    (List.replicate 3585 (0 : Byte)).length > 3584 :=
  ⟨by decide, by decide, by rw [List.length_replicate], by rw [List.length_replicate]; decide⟩

/-- ResetAndLaunchMeetTheInvariant: a launch. -/
theorem witness_launch_state : Memory.wf [] ∧ ∃ s, State.launch [] Config.conventionalFont [0x00, 0xE0] = some s := ⟨Memory.wf_nil, _, rfl⟩

/-- StepKeepsTheInvariant: a state that meets it, with frames on the stack, and its step. -/
theorem witness_inv : (frames 16 (at200 0x00EE)).Inv ∧ ∃ t, step (frames 16 (at200 0x00EE)) = .next t := by
  refine ⟨⟨by decide, by decide, fun j _ => ?_⟩, ⟨_, rfl⟩⟩
  simp only [frames, Vector.getElem_replicate]
  exact ⟨by decide, by decide, by decide⟩

/-- InstructionsChangeOnlyTheirFootprint, FlagRegisterHasSixFlagWriters: instructions that change `VF`, as a flag and as a
destination. -/
theorem witness_flag :
    (∃ t, exec (.addReg 1 2) (reg 2 100 (reg 1 200 (at200 0))) = .next t ∧
      t.getV 15 ≠ (reg 2 100 (reg 1 200 (at200 0))).getV 15) ∧
    ∃ t, exec (.loadImm 15 9) (at200 0) = .next t ∧ t.getV 15 ≠ (at200 0).getV 15 :=
  ⟨⟨_, rfl, by decide⟩, ⟨_, rfl, by decide⟩⟩

/-- FramebufferIsForClearAndDraw: a Draw, a Clear and a reset that change a cell, and an instruction that is no Draw. -/
theorem witness_framebuffer :
    (after (store 0x300 [0x80] ((at200 0xD011).setI 0x300))).map (fun t => decide (t.fb ≠ State.reset.fb)) = some true ∧
    (after ((at200 0x00E0).setFb (Vector.replicate 32 1))).map (fun t => decide (t.fb ≠ Vector.replicate 32 1)) =
      some true ∧
    (after (present [held none] ((at200 0).setFb (Vector.replicate 32 1)))).map
      (fun t => decide (t.fb ≠ Vector.replicate 32 1)) = some true ∧
    (∀ x y n, Instr.clear ≠ .draw x y n) := ⟨by decide, by decide, by decide, fun _ _ _ => Instr.noConfusion⟩

/-- RamIsForItsFourInstructions: a listed cell at the top of the RAM; a store and a loader write that change a byte; an
instruction that is neither Draw nor Load-registers. -/
theorem witness_ram :
    Memory.wf (store 0xFFF [7] (at200 0)).mem ∧ ((0xFFF, 7) : Host.Cell) ∈ (store 0xFFF [7] (at200 0)).mem ∧
    (after (reg 0 7 ((at200 0xF055).setI 0x300))).map (fun t => Memory.read t.mem 0x300) = some 7 ∧
    (after (present [held (some (0x300, 7))] (at200 0))).map (fun t => Memory.read t.mem 0x300) = some 7 ∧
    (∀ x y n, Instr.ret ≠ .draw x y n) ∧ ∀ x, Instr.ret ≠ .loadRegisters x :=
  ⟨by decide, by decide, by decide, by decide, fun _ _ _ => Instr.noConfusion, fun _ => Instr.noConfusion⟩

/-- StackIsForCallAndReturn: a Call that changes entry 15; a Return that reads another entry; a Return. -/
theorem witness_stack :
    (∃ t, exec (.call 0x300) (frames 15 (at200 0)) = .next t ∧ t.stk[15] ≠ (frames 15 (at200 0)).stk[15]) ∧
    (frames 2 (at200 0)).sp.val ≠ 0 + 1 ∧ ∃ t, exec .ret (frames 2 (at200 0)) = .next t :=
  ⟨⟨_, rfl, by decide⟩, by decide, ⟨_, rfl⟩⟩

/-- InputsReachOnlyTheirInstructions: Random is no key instruction, and a key instruction is not Random. -/
theorem witness_inputs :
    (∀ x, Instr.random 3 0x0F ≠ .skipIfPressed x ∧ Instr.random 3 0x0F ≠ .skipIfNotPressed x ∧
      Instr.random 3 0x0F ≠ .loadKey x) ∧
    ∀ x kk, Instr.loadKey 3 ≠ .random x kk :=
  ⟨fun _ => ⟨Instr.noConfusion, Instr.noConfusion, Instr.noConfusion⟩, fun _ _ => Instr.noConfusion⟩

/-- ReturnPopsThePc: no frame, one frame, sixteen frames in a state that meets the invariant, and the `pc` 4096. -/
theorem witness_return :
    (at200 0).sp.val = 0 ∧ (frames 1 (at200 0)).sp.val = (0 : Fin 16).val + 1 ∧
    (frames 16 (at200 0)).sp.val = (15 : Fin 16).val + 1 ∧ (frames 16 (at200 0x00EE)).Inv ∧
    ((at200 0).setPc 4096).StepEnabled := ⟨rfl, rfl, rfl, witness_inv.1, ⟨rfl, rfl, rfl⟩⟩

/-- JumpSetsThePc: an odd target with a step to follow, and a Jump to itself. -/
theorem witness_jump :
    (0x201 : Addr12).toNat % 2 = 1 ∧ ((at200 0).setPc (zextAddr 0x201)).StepEnabled ∧
    (at200 0x1200).pc.toNat = (0x200 : Addr12).toNat := ⟨by decide, ⟨rfl, rfl, rfl⟩, by decide⟩

/-- CallPushesTheReturnAddress, ReturnResumesAfterItsCall, SixteenCallsNestAndNoMore: a full stack, a stack with one place, an
empty one. -/
theorem witness_call :
    (frames 16 (at200 0)).sp.val = 16 ∧ (frames 15 (at200 0)).sp.val ≠ 16 ∧ (at200 0).sp.val = 0 := by decide

/-- A state about to execute a word at the highest address that can be fetched. -/
def atTop (hi lo : Byte) : State := store 0xFFE [hi, lo] ((at200 0).setPc 0xFFE)

/-- TakenSkipResumesFourOn: each of the six skips, taken, at the highest address. -/
theorem witness_takenSkip :
    ((atTop 0x30 0x00).issued = some (.skipEqImm 0 0) ∧ (atTop 0x30 0x00).getV 0 = 0) ∧
    ((atTop 0x40 0x01).issued = some (.skipNeqImm 0 1) ∧ (atTop 0x40 0x01).getV 0 ≠ 1) ∧
    ((atTop 0x51 0x20).issued = some (.skipEqReg 1 2) ∧ (atTop 0x51 0x20).getV 1 = (atTop 0x51 0x20).getV 2) ∧
    ((reg 1 7 (atTop 0x91 0x20)).issued = some (.skipNeqReg 1 2) ∧
      (reg 1 7 (atTop 0x91 0x20)).getV 1 ≠ (reg 1 7 (atTop 0x91 0x20)).getV 2) := by decide

/-- TakenSkipResumesFourOn: the key skips, on the highest key, and on a value that names none. -/
theorem witness_takenKeySkip :
    ((present [go 0 0x8000 0] (reg 5 15 (atTop 0xE5 0x9E))).issued = some (.skipIfPressed 5) ∧
      ∃ k : Fin 16, k.val = ((present [go 0 0x8000 0] (reg 5 15 (atTop 0xE5 0x9E))).getV 5).toNat ∧
        (present [go 0 0x8000 0] (reg 5 15 (atTop 0xE5 0x9E))).sampled.keys[k.val] = true) ∧
    ((present [go 0 0xFFFF 0] (reg 5 16 (atTop 0xE5 0xA1))).issued = some (.skipIfNotPressed 5) ∧
      ∀ k : Fin 16, k.val = ((present [go 0 0xFFFF 0] (reg 5 16 (atTop 0xE5 0xA1))).getV 5).toNat →
        (present [go 0 0xFFFF 0] (reg 5 16 (atTop 0xE5 0xA1))).sampled.keys[k.val] = false) := by decide

/-- LogicLeavesTheFlag, AddRegSumsWithCarry, SubtractionsWrapWithStrictFlag, ShiftsMoveOneBitToTheFlag: a destination that is
not `VF`; the flag each way. -/
theorem witness_destination :
    (1 : Nibble) ≠ 15 ∧ (200 : Byte).toNat + (100 : Byte).toNat > 255 ∧ ¬(255 : Byte).toNat + (0 : Byte).toNat > 255 := by
  decide

/-- ShiftsUseOneRegister: two different registers and a word of each shift. -/
theorem witness_shifts :
    (2 : Nibble) ≠ 1 ∧ decode 0x8126 = .instr (.shiftRight 1 2) ∧ decode 0x812E = .instr (.shiftLeft 1 2) := by decide

/-- OutOfRangeAccessIsBoundsFailure: the lowest `I` of each clause. -/
theorem witness_bounds :
    (1 ≤ (7 : Nibble).toNat ∧ ((at200 0).setI 0xFFA).i.toNat + ((7 : Nibble).toNat - 1) > 4095) ∧
    ((at200 0).setI 0xFFE).i.toNat + 2 > 4095 ∧ ((at200 0).setI 0xFF1).i.toNat + (15 : Nibble).toNat > 4095 ∧
    ((at200 0).setI 0x1000).i.toNat + (0 : Nibble).toNat > 4095 := by decide

/-- StoreBcdWritesThreeDigits, StoreRegistersWritesARun, LoadRegistersReadsARun, StoreAndLoadRegistersRoundTrip: the highest
`I` in range. -/
theorem witness_inRange :
    Memory.wf (at200 0).mem ∧ ((at200 0).setI 0xFFD).i.toNat + 2 ≤ 4095 ∧
    ((at200 0).setI 0xFF0).i.toNat + (15 : Nibble).toNat ≤ 4095 ∧
    ((at200 0).setI 0xFFF).i.toNat + (0 : Nibble).toNat ≤ 4095 := by decide

/-- StoredRegistersAreFetched, both clauses. -/
theorem witness_storedFetched :
    ((at200 0).setI 0xFFD).i.toNat + 2 ≤ 4095 ∧
    Memory.wf (at200 0).mem ∧ ((at200 0).setI 0x208).i.toNat + (1 : Nibble).toNat ≤ 4095 ∧
    (1 : Nibble).toNat = (0 : Nibble).toNat + 1 ∧ (1 : Nibble).toNat ≤ (1 : Nibble).toNat := by decide

/-- ClearEmptiesTheFramebuffer: a clear framebuffer, and a Clear about to be executed. -/
theorem witness_clear :
    (∀ row col, cell (at200 0x00E0).fb row col = false) ∧ (at200 0x00E0).issued = some .clear :=
  ⟨cell_clear, by decide⟩

/-- DrawFlipsTheCoveredCells: no rows at the highest `I`; rows that end at 4095; a covered cell, lit and unlit; a cell not
covered; a Draw about to be executed. -/
theorem witness_draw :
    (0 : Nibble).toNat = 0 ∧ ((at200 0).setI 0xFFA).i.toNat + ((6 : Nibble).toNat - 1) ≤ 4095 ∧
    (store 0x300 [0x80] ((at200 0).setI 0x300)).spriteCovers 60 31 1 31 60 ∧
    cell (at200 0).fb 31 60 = false ∧ cell ((at200 0).setFb (Vector.replicate 32 0xFFFFFFFFFFFFFFFF)).fb 31 60 = true ∧
    ¬(store 0x300 [0x80] ((at200 0).setI 0x300)).spriteCovers 60 31 0 31 60 ∧
    (at200 0xD016).issued = some (.draw 0 1 6) :=
  ⟨by decide, by decide, ⟨0, 0, by decide, by decide, by decide, by decide, by decide⟩, by decide, by decide,
    fun ⟨_, _, h, _⟩ => absurd h (Nat.not_lt_zero _), by decide⟩

/-- DrawTwiceRestoresTheFramebuffer: coordinate registers that are not `VF` with any `b`, and a coordinate register `VF` given
back its value. -/
theorem witness_drawTwice :
    (∀ b, ((at200 0).setV 15 b).getV 0 = (at200 0).getV 0) ∧ (((at200 0).setV 15 1).setV 15 0).getV 15 = (at200 0).getV 15 :=
  ⟨fun b => by simp, by decide⟩

/-- KeySkipsTestTheWholeByte: the highest key, and the lowest and the highest value that names none. -/
theorem witness_keySkips :
    (15 : Fin 16).val = (reg 5 15 (at200 0)).getV 5 ∧ ((reg 5 16 (at200 0)).getV 5).toNat > 15 ∧
    ((reg 5 255 (at200 0)).getV 5).toNat > 15 := by decide

/-- LoadKeyWaitsOrCompletes, KeyPollEndsTheWait: no key, keys 4 and 9, and key 15 alone. -/
theorem witness_keys :
    (∀ k : Fin 16, (0 : BitVec 16)[k.val] = false) ∧
    ((0x0210 : BitVec 16)[(4 : Fin 16).val] = true ∧ ∀ j : Fin 16, j < 4 → (0x0210 : BitVec 16)[j.val] = false) ∧
    ((0x8000 : BitVec 16)[(15 : Fin 16).val] = true ∧ ∀ j : Fin 16, j < 15 → (0x8000 : BitVec 16)[j.val] = false) := by
  decide

/-- KeyPollEndsTheWait: a waiting core permitted to step, with those snapshots. -/
theorem witness_poll :
    (present [go 0 0x0210 0] ((at200 0).setStatus (.awaitKey 3))).status = .awaitKey 3 ∧
    (present [go 0 0x0210 0] ((at200 0).setStatus (.awaitKey 3))).sampled = go 0 0x0210 0 ∧
    (present [go 0 0 0] ((at200 0).setStatus (.awaitKey 3))).sampled = go 0 0 0 ∧
    (go 0 0 0).rst = false ∧ (go 0 0 0).run = true := by decide

end Sys2Proof.Tests
end

section
/-! PROOFS. What each instruction may change, and that it always answers a next state, said once
(`exec_ends_in_footprint`); two runs of one instruction from states that differ in one store; and, from these, who writes
and who reads the framebuffer, the RAM and the call stack (spec/10_state.md R31, R36, R37). -/

namespace Sys2Proof.Machine

/-! ### Outcomes that are a next state -/

/-- The outcome is a next state with the property `P`. -/
def EndsIn (P : State → Prop) (o : Host.Outcome State Fault Refusal) : Prop := ∃ t, o = .next t ∧ P t

theorem EndsIn.next {P : State → Prop} {t : State} (h : P t) : EndsIn P (.next t) := ⟨t, rfl, h⟩

theorem EndsIn.of_eq_next {P : State → Prop} {o : Host.Outcome State Fault Refusal} {t : State} (h : EndsIn P o)
    (ht : o = .next t) : P t := by
  obtain ⟨u, hu, hP⟩ := h
  cases hu.symm.trans ht
  exact hP

theorem EndsIn.ite {P : State → Prop} {c : Prop} [Decidable c] {o p : Host.Outcome State Fault Refusal}
    (ho : EndsIn P o) (hp : EndsIn P p) : EndsIn P (if c then o else p) := by
  split
  · exact ho
  · exact hp

theorem EndsIn.dite {P : State → Prop} {c : Prop} [Decidable c] {o : c → Host.Outcome State Fault Refusal}
    {p : ¬c → Host.Outcome State Fault Refusal} (ho : ∀ h, EndsIn P (o h)) (hp : ∀ h, EndsIn P (p h)) :
    EndsIn P (if h : c then o h else p h) := by
  split
  · exact ho _
  · exact hp _

/-- Load-key as the choice of two outcomes, as the meanings that can fail are written. -/
theorem exec_loadKey (x : Nibble) (s : State) :
    exec (.loadKey x) s =
      if s.keys = 0 then .next (s.setStatus (.awaitKey x)) else .next (s.setV x (minKey s.keys)) :=
  apply_ite _ _ _ _

/-! ### The frame of every instruction (R12) -/

/-- A frame that also allows `status` to change. -/
theorem Frame.allow_status {p : Footprint} {s t : State} (h : Frame p s t) : Frame { p with status := true } s t :=
  h.weaken ⟨fun _ h => h, fun _ h => h, id, id, id, id, id, id, id, fun _ => rfl⟩

/-- A new `status`, a failure's among them, stays inside every footprint that allows `status` to change. -/
theorem Frame.of_status {q : Footprint} {s t : State} (h : Frame { status := true } s t) (hq : q.status = true) :
    Frame q s t :=
  h.weaken ⟨nofun, nofun, nofun, nofun, nofun, nofun, nofun, nofun, nofun, fun _ => hq⟩

/-- A completed Draw: the framebuffer and `VF`. -/
theorem frame_setFb_setFlag (s : State) (f : Framebuffer) (c : Bool) :
    Frame { regs := [15], fb := true } s ((s.setFb f).setFlag c) :=
  Frame.trans
    ((frame_setFb s f).weaken ⟨nofun, nofun, nofun, nofun, nofun, nofun, nofun, nofun, id, nofun⟩)
    ((frame_setFlag (s.setFb f) c).weaken
      ⟨fun _ h => h, nofun, nofun, nofun, nofun, nofun, nofun, nofun, nofun, nofun⟩)

/-- Store-registers: the bytes at `I` to `I + x`. -/
theorem frame_storeRegs (s : State) (x : Nibble) :
    Frame { mem := s.dataAddrs (x.toNat + 1) } s
      (s.setMem (Memory.writeRun s.mem (s.dataAddr 0) (s.regsUpTo x))) := by
  rw [← s.length_regsUpTo x]
  exact frame_store s (s.regsUpTo x)

/-- A data access ends in a BoundsFailure or in its own frame. -/
theorem raiseBounds_or_ends_in_frame {p : Footprint} {s t : State} {c : Prop} [Decidable c] (h : Frame p s t) :
    EndsIn (Frame { p with status := true } s) (if c then .next s.raiseBounds else .next t) :=
  .ite (.next ((frame_raiseBounds s).of_status rfl)) (.next h.allow_status)

/-- Every instruction answers a next state, and changes nothing outside its footprint. -/
theorem exec_ends_in_footprint (i : Instr) (s : State) : EndsIn (Frame (footprint s i) s) (exec i s) := by
  cases i with
  | clear => exact .next (frame_setFb s _)
  | ret => exact .ite (.next ((frame_raiseExec s _ _).of_status rfl)) (.next (frame_pop s _).allow_status)
  | call nnn =>
    exact .dite (fun _ => .next ((frame_raiseExec s _ _).of_status rfl))
      (fun h => .next (frame_push s _ _ h).allow_status)
  | jump | jumpIndexed => exact .next (frame_setPc s _)
  | skipEqImm | skipNeqImm | skipEqReg | skipNeqReg | skipIfPressed | skipIfNotPressed =>
    exact .next (frame_skipIf s _)
  | loadImm x | addImm x | loadReg x | orReg x | andReg x | xorReg x | random x | loadDelay x =>
    exact .next (frame_setV s x _)
  | addReg x | subReg x | shiftRight x | subNegated x | shiftLeft x => exact .next (frame_flagThenResult s x _ _)
  | loadAddress | addToIndex | loadFontAddress => exact .next (frame_setI s _)
  | setDelay => exact .next (frame_setDt s _)
  | setSound => exact .next (frame_setSt s _)
  | loadKey x =>
    rw [exec_loadKey]
    exact .ite (.next ((frame_setStatus s _).of_status rfl)) (.next (frame_setV s x _).allow_status)
  | draw x y n => exact raiseBounds_or_ends_in_frame (frame_setFb_setFlag s _ _)
  | storeBcd x => exact raiseBounds_or_ends_in_frame (frame_store s (bcdDigits (s.getV x)))
  | storeRegisters x => exact raiseBounds_or_ends_in_frame (frame_storeRegs s x)
  | loadRegisters x => exact raiseBounds_or_ends_in_frame (frame_loadedRegs s x)

/-- The frame of an instruction whose next state is known. -/
theorem frame_of_exec {i : Instr} {s t : State} (h : exec i s = .next t) : Frame (footprint s i) s t :=
  (exec_ends_in_footprint i s).of_eq_next h

/-! ### Which footprints name a store -/

theorem eq_clear_or_draw_of_footprint_fb {i : Instr} {s : State} (h : (footprint s i).fb = true) :
    i = .clear ∨ ∃ x y n, i = .draw x y n := by
  cases i with
  | clear => exact .inl rfl
  | draw x y n => exact .inr ⟨x, y, n, rfl⟩
  | _ => exact absurd h Bool.false_ne_true

theorem eq_store_of_mem_footprint {i : Instr} {s : State} {a : Nat} (h : a ∈ (footprint s i).mem) :
    ∃ x, i = .storeBcd x ∨ i = .storeRegisters x := by
  cases i with
  | storeBcd x => exact ⟨x, .inl rfl⟩
  | storeRegisters x => exact ⟨x, .inr rfl⟩
  | _ => exact absurd h List.not_mem_nil

theorem eq_call_of_footprint_stk {i : Instr} {s : State} (h : (footprint s i).stk = true) : ∃ nnn, i = .call nnn := by
  cases i with
  | call nnn => exact ⟨nnn, rfl⟩
  | _ => exact absurd h Bool.false_ne_true

/-! ### Steps that execute no instruction -/

@[simp] theorem State.ticks_fb (s : State) (n : Nat) : (s.ticks n).fb = s.fb := rfl
@[simp] theorem State.ticks_mem (s : State) (n : Nat) : (s.ticks n).mem = s.mem := rfl
@[simp] theorem State.stepStart_fb (s : State) : s.stepStart.fb = s.fb := rfl
@[simp] theorem State.stepStart_mem (s : State) : s.stepStart.mem = s.mem := rfl
@[simp] theorem State.advance_fb (s : State) : s.advance.fb = s.fb := rfl
@[simp] theorem State.advance_mem (s : State) : s.advance.mem = s.mem := rfl
@[simp] theorem State.raise_fb (s : State) (c : Cause) (p n : Word) : (s.raise c p n).fb = s.fb := rfl
@[simp] theorem State.raise_mem (s : State) (c : Cause) (p n : Word) : (s.raise c p n).mem = s.mem := rfl

@[simp] theorem State.poll_fb (s : State) (x : Nibble) : (s.poll x).fb = s.fb := by
  unfold State.poll
  split <;> rfl

@[simp] theorem State.poll_mem (s : State) (x : Nibble) : (s.poll x).mem = s.mem := by
  unfold State.poll
  split <;> rfl

/-- A step is reset, or leaves the framebuffer and the RAM alone, or executes the instruction it issues. -/
theorem step_resets_or_keeps_or_executes {s t : State} (h : step s = .next t) :
    (s.sampled.rst = true ∧ t = s.passBoundary.resetEvent.loaderWrite s.sampled.load) ∨
    (t.fb = s.fb ∧ t.mem = s.mem) ∨
    ∃ i, s.issued = some i ∧ exec i s.stepStart.advance = .next t := by
  obtain hr | ⟨-, -, -, rfl⟩ | ⟨-, -, -, rfl⟩ | ⟨x, -, -, -, rfl⟩ | ⟨-, -, -, -, c, -, rfl⟩ | ⟨-, -, -, -, -, rfl⟩ |
    he := step_cases h
  · exact .inl hr
  · exact .inr (.inl (by simp))
  · exact .inr (.inl (by simp))
  · exact .inr (.inl (by simp))
  · exact .inr (.inl (by simp))
  · exact .inr (.inl (by simp))
  · exact .inr (.inr he)

/-! ### Two runs side by side -/

/-- Both outcomes are next states, and the relation `R` holds of the two. -/
def BothEndIn (R : State → State → Prop) (o o' : Host.Outcome State Fault Refusal) : Prop :=
  ∃ t u, o = .next t ∧ o' = .next u ∧ R t u

theorem BothEndIn.next {R : State → State → Prop} {t u : State} (h : R t u) : BothEndIn R (.next t) (.next u) :=
  ⟨t, u, rfl, rfl, h⟩

/-- Two runs that take the same branch. -/
theorem BothEndIn.ite {R : State → State → Prop} {c : Prop} [Decidable c]
    {o p o' p' : Host.Outcome State Fault Refusal} (ho : c → BothEndIn R o o') (hp : ¬c → BothEndIn R p p') :
    BothEndIn R (if c then o else p) (if c then o' else p') := by
  split
  · exact ho (by assumption)
  · exact hp (by assumption)

/-- Two runs that take the same branch, where a branch uses the proof that it is taken. -/
theorem BothEndIn.dite {R : State → State → Prop} {c : Prop} [Decidable c]
    {o o' : c → Host.Outcome State Fault Refusal} {p p' : ¬c → Host.Outcome State Fault Refusal}
    (ho : ∀ h, BothEndIn R (o h) (o' h)) (hp : ∀ h, BothEndIn R (p h) (p' h)) :
    BothEndIn R (if h : c then o h else p h) (if h : c then o' h else p' h) := by
  split
  · exact ho _
  · exact hp _

/-- Load-registers from two states with the same `I` and the same bytes to load. -/
theorem exec_loadRegisters_both {R : State → State → Prop} {s s' : State} (x : Nibble) (hi : s'.i = s.i)
    (hv : s'.loadedRegs x = s.loadedRegs x) (hfail : R s.raiseBounds s'.raiseBounds)
    (hload : ∀ v, R (s.setAllV v) (s'.setAllV v)) :
    BothEndIn R (exec (.loadRegisters x) s) (exec (.loadRegisters x) s') := by
  have hbounds : s'.outOfBounds (x.toNat + 1) = s.outOfBounds (x.toNat + 1) :=
    Bool.eq_iff_iff.mpr (by rw [State.outOfBounds_iff, State.outOfBounds_iff, hi])
  simp only [exec, execLoadRegisters, hbounds, hv]
  exact .ite (fun _ => .next hfail) (fun _ => .next (hload _))

/-! ### The framebuffer (R36) -/

/-- Every instruction but Draw does the same whatever the framebuffer holds. -/
theorem exec_ignores_fb {i : Instr} (hi : ∀ x y n, i ≠ .draw x y n) (s : State) (f : Framebuffer) :
    BothEndIn (fun t u => u.setFb t.fb = t) (exec i s) (exec i (s.setFb f)) := by
  cases i with
  | draw x y n => exact absurd rfl (hi x y n)
  | ret | storeBcd | storeRegisters => exact .ite (fun _ => .next rfl) (fun _ => .next rfl)
  | loadRegisters x => exact exec_loadRegisters_both x rfl rfl rfl fun _ => rfl
  | loadKey =>
    rw [exec_loadKey, exec_loadKey]
    exact .ite (fun _ => .next rfl) (fun _ => .next rfl)
  | call => exact .dite (fun _ => .next rfl) (fun _ => .next rfl)
  | _ => exact .next rfl

/-- The read port, at the address of a cell, gives that cell. -/
theorem State.fbData_cell_address (s : State) (row : Fin 32) (col : Fin 64) :
    s.fbData (BitVec.ofNat 11 (row.val * 64 + col.val)) = cell s.fb row col := by
  have haddr : (BitVec.ofNat 11 (row.val * 64 + col.val)).toNat = row.val * 64 + col.val := by
    rw [BitVec.toNat_ofNat]
    omega
  have hrow : Fin.ofNat 32 ((row.val * 64 + col.val) / 64) = row := Fin.ext (by simp only [Fin.val_ofNat]; omega)
  have hcol : Fin.ofNat 64 ((row.val * 64 + col.val) % 64) = col := Fin.ext (by simp only [Fin.val_ofNat]; omega)
  rw [State.fbData, haddr, hrow, hcol]

/-- A step that changes the framebuffer is reset, a Clear or a Draw. -/
theorem reset_or_clear_or_draw_of_step_fb {s t : State} (h : step s = .next t) (hfb : t.fb ≠ s.fb) :
    s.sampled.rst = true ∨ s.issued = some .clear ∨ ∃ x y n, s.issued = some (.draw x y n) := by
  obtain ⟨hr, -⟩ | ⟨hk, -⟩ | ⟨i, hi, he⟩ := step_resets_or_keeps_or_executes h
  · exact .inl hr
  · exact absurd hk hfb
  · have hw : (footprint s.stepStart.advance i).fb = true := by
      by_contra hn
      exact hfb (by simpa using (frame_of_exec he).fb (by simpa using hn))
    rw [hi]
    obtain rfl | ⟨x, y, n, rfl⟩ := eq_clear_or_draw_of_footprint_fb hw
    · exact .inr (.inl rfl)
    · exact .inr (.inr ⟨x, y, n, rfl⟩)

/-- Settles O27: the writers by the frame of every instruction, the readers by running each instruction but Draw on two
framebuffers, the read port by arithmetic on the cell's address. -/
theorem framebufferIsForClearAndDraw : Obligations.FramebufferIsForClearAndDraw :=
  ⟨fun _ _ => reset_or_clear_or_draw_of_step_fb, fun _ s f hi => exec_ignores_fb hi s f, State.fbData_cell_address⟩

/-! ### The RAM (R37) -/

/-- Every instruction but Draw and Load-registers does the same whatever the RAM holds. -/
theorem exec_ignores_mem {i : Instr} (hd : ∀ x y n, i ≠ .draw x y n) (hl : ∀ x, i ≠ .loadRegisters x) (s : State)
    (m : Memory) : BothEndIn (fun t u => u.setMem t.mem = t) (exec i s) (exec i (s.setMem m)) := by
  cases i with
  | draw x y n => exact absurd rfl (hd x y n)
  | loadRegisters x => exact absurd rfl (hl x)
  | ret | storeBcd | storeRegisters => exact .ite (fun _ => .next rfl) (fun _ => .next rfl)
  | loadKey =>
    rw [exec_loadKey, exec_loadKey]
    exact .ite (fun _ => .next rfl) (fun _ => .next rfl)
  | call => exact .dite (fun _ => .next rfl) (fun _ => .next rfl)
  | _ => exact .next rfl

/-- A step that changes a byte of the RAM is a loader write in reset, a Store-BCD or a Store-registers. -/
theorem loader_or_store_of_step_mem {s t : State} {a : Nat} (h : step s = .next t)
    (hm : Memory.read t.mem a ≠ Memory.read s.mem a) :
    (s.sampled.rst = true ∧ s.sampled.load ≠ none) ∨
      ∃ x, s.issued = some (.storeBcd x) ∨ s.issued = some (.storeRegisters x) := by
  obtain ⟨hr, rfl⟩ | ⟨-, hk⟩ | ⟨i, hi, he⟩ := step_resets_or_keeps_or_executes h
  · refine .inl ⟨hr, fun hnone => hm ?_⟩
    rw [hnone]
    rfl
  · exact absurd (by rw [hk]) hm
  · have hw : a ∈ (footprint s.stepStart.advance i).mem := by
      by_contra hn
      exact hm (by simpa using (frame_of_exec he).mem a hn)
    obtain ⟨x, hx⟩ := eq_store_of_mem_footprint hw
    exact .inr ⟨x, by simpa only [hi, Option.some.injEq] using hx⟩

/-- Settles O28: the bound by the canonical form, the writers by the frame of every instruction, the readers by running
each instruction but Draw and Load-registers on two memories. -/
theorem ramIsForItsFourInstructions : Obligations.RamIsForItsFourInstructions :=
  ⟨fun _ c hw hc => Nat.le_of_lt_succ (hw.2 c hc).1, fun _ _ _ => loader_or_store_of_step_mem,
    fun _ s m hd hl => exec_ignores_mem hd hl s m⟩

/-! ### The call stack (R31) -/

/-- A Call that changes an entry has pushed onto it. -/
theorem sp_of_call_changes_stk {nnn : Addr12} {s t : State} {j : Fin 16} (h : exec (.call nnn) s = .next t)
    (hj : t.stk[j.val] ≠ s.stk[j.val]) : s.sp.val = j.val ∧ t.sp.val = j.val + 1 := by
  rw [exec, execCall] at h
  split at h
  · cases h
    exact absurd rfl hj
  · cases h
    have hsp : s.sp.val = j.val := by
      by_contra hne
      exact hj (Vector.getElem_set_ne (by have := s.sp.isLt; omega) j.isLt hne)
    exact ⟨hsp, congrArg (· + 1) hsp⟩

/-- Return reads the entry below `SP` and no other. -/
theorem State.top_set_stk_of_ne {s : State} {j : Fin 16} (w : Word) (h0 : s.sp.val ≠ 0) (hj : s.sp.val ≠ j.val + 1) :
    State.top { s with stk := s.stk.set j.val w } = s.top :=
  have hne : j.val ≠ s.sp.val - 1 := by omega
  Vector.getElem_set_ne j.isLt _ hne

/-- An instruction does the same whatever `STK[j]` holds, unless it is a Return at depth `j + 1`. -/
theorem exec_ignores_stk {i : Instr} {s : State} {j : Fin 16} (w : Word) (h : i ≠ .ret ∨ s.sp.val ≠ j.val + 1) :
    BothEndIn (fun t u => { u with stk := t.stk } = t) (exec i s) (exec i { s with stk := s.stk.set j.val w }) := by
  cases i with
  | ret =>
    have hj : s.sp.val ≠ j.val + 1 := h.resolve_left fun hn => hn rfl
    exact .ite (fun _ => .next rfl) fun h0 =>
      .next (congrArg (s.pop.setPc ·) (State.top_set_stk_of_ne w h0 hj))
  | draw | storeBcd | storeRegisters => exact .ite (fun _ => .next rfl) (fun _ => .next rfl)
  | loadRegisters x => exact exec_loadRegisters_both x rfl rfl rfl fun _ => rfl
  | loadKey =>
    rw [exec_loadKey, exec_loadKey]
    exact .ite (fun _ => .next rfl) (fun _ => .next rfl)
  | call => exact .dite (fun _ => .next rfl) (fun _ => .next rfl)
  | _ => exact .next rfl

/-- An instruction that changes `STK[j]` is a Call that takes `SP` from `j` to `j + 1`. -/
theorem call_of_exec_changes_stk {i : Instr} {s t : State} {j : Fin 16} (h : exec i s = .next t)
    (hj : t.stk[j.val] ≠ s.stk[j.val]) :
    (∃ nnn, i = .call nnn) ∧ s.sp.val = j.val ∧ t.sp.val = j.val + 1 := by
  have hw : (footprint s i).stk = true := by
    by_contra hn
    exact hj (by rw [(frame_of_exec h).stk (by simpa using hn)])
  obtain ⟨nnn, rfl⟩ := eq_call_of_footprint_stk hw
  exact ⟨⟨nnn, rfl⟩, sp_of_call_changes_stk h hj⟩

/-- Settles O29: the writer by the frame of every instruction, the reader by running each instruction on two stacks that
differ in one entry, and Return's frame, which names no entry. -/
theorem stackIsForCallAndReturn : Obligations.StackIsForCallAndReturn :=
  ⟨fun _ _ _ _ => call_of_exec_changes_stk, fun _ _ _ w => exec_ignores_stk w, fun _ _ h => (frame_of_exec h).stk rfl⟩

end Sys2Proof.Machine
end

section
/-! PROOFS. The operand fields of an instruction word (spec/30_encoding.md R92). Each field's value is a lemma of
Sys2Proof/Laws/Decode.lean; here are the two overlaps: `nnn` and `kk` read the same bits as `x`, `y` and `n`. -/

namespace Sys2Proof

theorem toNat_fieldKk_eq_nibbles (w : Word) : (fieldKk w).toNat = (fieldY w).toNat * 16 + (fieldN w).toNat := by
  rw [toNat_fieldKk, toNat_fieldY, toNat_fieldN]
  omega

theorem toNat_fieldNnn_eq_nibbles (w : Word) :
    (fieldNnn w).toNat = (fieldX w).toNat * 256 + (fieldY w).toNat * 16 + (fieldN w).toNat := by
  rw [toNat_fieldNnn, toNat_fieldX, toNat_fieldY, toNat_fieldN]
  omega

/-- Settles O2: the value of each extraction, and the two overlaps by arithmetic on those values. -/
theorem operandFieldsAreBitRanges : Obligations.OperandFieldsAreBitRanges := fun w =>
  ⟨toNat_fieldOp w, toNat_fieldX w, toNat_fieldY w, toNat_fieldKk w, toNat_fieldNnn w, toNat_fieldN w,
    toNat_fieldNnn_eq_nibbles w, toNat_fieldKk_eq_nibbles w⟩

end Sys2Proof
end

section
/-! PROOFS. The word an instruction was decoded from is its encoding (spec/30_encoding.md R91, R95, R100): a word is rebuilt
from its fields, once for each of the three patterns of fields, and then group by group along the decoder's dispatch. -/

namespace Sys2Proof

/-! ### A word rebuilt from its fields, the fixed ones given as values -/

theorem wordA_eq_of_fieldOp {w : Word} {p : Nibble} (hop : fieldOp w = p) : p ++ fieldNnn w = w := by
  rw [← hop]
  exact word_eq_wordA w

theorem wordXK_eq_of_fieldOp {w : Word} {p : Nibble} (hop : fieldOp w = p) : p ++ fieldX w ++ fieldKk w = w := by
  rw [← hop]
  exact word_eq_wordXK w

theorem wordXK_eq_of_fields {w : Word} {p : Nibble} {k : Byte} (hop : fieldOp w = p) (hkk : fieldKk w = k) :
    p ++ fieldX w ++ k = w := by
  rw [← hkk]
  exact wordXK_eq_of_fieldOp hop

theorem wordXYN_eq_of_fieldOp {w : Word} {p : Nibble} (hop : fieldOp w = p) :
    p ++ fieldX w ++ fieldY w ++ fieldN w = w := by
  rw [← hop]
  exact word_eq_wordXYN w

theorem wordXYN_eq_of_fields {w : Word} {p n : Nibble} (hop : fieldOp w = p) (hn : fieldN w = n) :
    p ++ fieldX w ++ fieldY w ++ n = w := by
  rw [← hn]
  exact wordXYN_eq_of_fieldOp hop

/-! ### The decoder, group by group -/

theorem encode_of_decodeGroup0 {w : Word} {i : Instr} (h : decodeGroup0 w = .instr i) : encode i = w := by
  unfold decodeGroup0 at h
  repeat' split at h
  all_goals cases h
  all_goals exact Eq.symm ‹_›

theorem decodeStrict_eq_instr {w : Word} {i j : Instr} (h : decodeStrict w j = .instr i) : fieldN w = 0 ∧ j = i := by
  unfold decodeStrict at h
  split at h
  · cases h
    exact ⟨‹_›, rfl⟩
  · cases h

theorem encode_of_decodeGroup8 {w : Word} {i : Instr} (hop : fieldOp w = 8) (h : decodeGroup8 w = .instr i) :
    encode i = w := by
  unfold decodeGroup8 at h
  split at h <;> cases h
  all_goals exact wordXYN_eq_of_fields hop (BitVec.eq_of_toNat_eq ‹_›)

theorem encode_of_decodeGroupE {w : Word} {i : Instr} (hop : fieldOp w = 0xE) (h : decodeGroupE w = .instr i) :
    encode i = w := by
  unfold decodeGroupE at h
  repeat' split at h
  all_goals cases h
  all_goals exact wordXK_eq_of_fields hop ‹_›

theorem encode_of_decodeGroupF {w : Word} {i : Instr} (hop : fieldOp w = 0xF) (h : decodeGroupF w = .instr i) :
    encode i = w := by
  unfold decodeGroupF at h
  repeat' split at h
  all_goals cases h
  all_goals exact wordXK_eq_of_fields hop ‹_›

/-- No bit of a decoded word is dropped. -/
theorem encode_of_decode {w : Word} {i : Instr} (h : decode w = .instr i) : encode i = w := by
  unfold decode at h
  split at h
  case h_1 => exact encode_of_decodeGroup0 h
  case h_2 hop | h_3 hop | h_11 hop | h_12 hop =>
    cases h
    exact wordA_eq_of_fieldOp (BitVec.eq_of_toNat_eq hop)
  case h_4 hop | h_5 hop | h_7 hop | h_8 hop | h_13 hop =>
    cases h
    exact wordXK_eq_of_fieldOp (BitVec.eq_of_toNat_eq hop)
  case h_6 hop | h_10 hop =>
    obtain ⟨hn, rfl⟩ := decodeStrict_eq_instr h
    exact wordXYN_eq_of_fields (BitVec.eq_of_toNat_eq hop) hn
  case h_9 hop => exact encode_of_decodeGroup8 (BitVec.eq_of_toNat_eq hop) h
  case h_14 hop =>
    cases h
    exact wordXYN_eq_of_fieldOp (BitVec.eq_of_toNat_eq hop)
  case h_15 hop => exact encode_of_decodeGroupE (BitVec.eq_of_toNat_eq hop) h
  case h_16 hop => exact encode_of_decodeGroupF (BitVec.eq_of_toNat_eq hop) h
  case h_17 => cases h

end Sys2Proof
end

section
/-! PROOFS. The step cycle (spec/40_step_cycle.md): the fetch and the advance of a state whose fetch checks pass (R123, R124),
the two outcomes of the decoder (R125), the tick event (R130), and what a step is under reset, under a stopped host and
for a Faulted core. -/

namespace Sys2Proof.Machine

/-! ### Fetch and advance (R122 to R124) -/

theorem State.fetchable_iff (s : State) : s.fetchable = true ↔ s.pc.toNat % 2 = 0 ∧ s.pc.toNat ≤ 4094 :=
  decide_eq_true_iff

@[simp] theorem State.stepStart_pc (s : State) : s.stepStart.pc = s.pc := rfl
@[simp] theorem State.advance_pc (s : State) : s.advance.pc = s.pc + 2 := rfl

/-- Settles O6: the value of two bytes put together, and the bound of the fetch checks, which an even `pc` keeps for the
second byte. -/
theorem fetchIsBigEndianAndInRange : Obligations.FetchIsBigEndianAndInRange := by
  intro s hf
  obtain ⟨-, hle⟩ := s.fetchable_iff.mp hf
  exact ⟨toNat_wordOfBytes _ _, by omega⟩

/-- The advance does not wrap where the fetch checks pass (R124). -/
theorem State.toNat_advance_pc {s : State} (hf : s.fetchable = true) : s.advance.pc.toNat = s.pc.toNat + 2 := by
  obtain ⟨-, hle⟩ := s.fetchable_iff.mp hf
  rw [s.advance_pc, BitVec.toNat_add, show (2 : Word).toNat = 2 from rfl]
  omega

/-! ### The step, by what the boundary permits (R125, R129, R131) -/

theorem step_of_stepEnabled {s : State} (hs : s.StepEnabled) : step s = instructionStep s.stepStart := by
  obtain ⟨hrst, hrun, hstatus⟩ := hs
  simp [step_eq, hrst, hrun, hstatus]

theorem step_of_decode {s : State} {i : Instr} (hs : s.StepEnabled) (hf : s.fetchable = true)
    (hd : decode s.fetchWord = .instr i) : step s = exec i s.stepStart.advance :=
  (step_of_stepEnabled hs).trans (instructionStep_of_decode hf hd)

theorem step_of_decodeFailure {s : State} (hs : s.StepEnabled) (hf : s.fetchable = true)
    (hd : decode s.fetchWord = .decodeFailure) :
    step s = .next (s.stepStart.advance.raise .decodeFailure s.pc s.fetchWord) :=
  (step_of_stepEnabled hs).trans (instructionStep_of_decodeFailure (s := s.stepStart) hf hd)

theorem step_of_reset {s : State} (hrst : s.sampled.rst = true) :
    step s = .next (s.passBoundary.resetEvent.loaderWrite s.sampled.load) := by
  rw [step_eq, if_pos hrst]

theorem State.not_safe_iff (s : State) : ¬s.Safe ↔ ∃ c p n, s.status = .faulted c p n := by
  unfold State.Safe State.stFault
  cases s.status <;> simp

/-- With the host stopped, a core that is not Faulted only takes the ticks of the boundary. -/
theorem step_of_stopped {s : State} (hrst : s.sampled.rst = false) (hrun : s.sampled.run = false) (hs : s.Safe) :
    step s = .next (s.passBoundary.ticks s.sampled.ticks) := by
  cases hstatus : s.status with
  | faulted c p n => exact absurd hs (s.not_safe_iff.mpr ⟨c, p, n, hstatus⟩)
  | running | awaitKey => simp [step_eq, hrst, hrun, hstatus]

/-- A Faulted core lets a boundary without reset pass (R262). -/
theorem eq_passBoundary_of_step_faulted {s t : State} (h : step s = .next t) (hrst : s.sampled.rst = false)
    (hs : ¬s.Safe) : t = s.passBoundary := by
  obtain ⟨c, p, n, hstatus⟩ := s.not_safe_iff.mp hs
  simp only [step_eq, hrst, hstatus, Bool.false_eq_true, if_false] at h
  split at h
  · cases h
  · cases h
    rfl

/-! ### Decode and execute (R124, R125) -/

/-- The frame of a decode failure: the advance and the record. -/
theorem frame_advance_raise (s : State) (c : Cause) (p n : Word) :
    Frame { pc := true, status := true } s (s.advance.raise c p n) :=
  (frame_advance s).allow_status.trans ((frame_raise s.advance c p n).of_status rfl)

/-- Settles O8: the advance by the bound of the fetch checks, and the step by the two outcomes of the decoder, each of which
starts from the advanced state. -/
theorem advanceNeverWraps : Obligations.AdvanceNeverWraps := by
  intro s hf
  obtain ⟨-, hle⟩ := s.fetchable_iff.mp hf
  exact ⟨State.toNat_advance_pc (s := s.stepStart) hf, by omega, frame_advance s.stepStart,
    fun _ hs hd => step_of_decode hs hf hd, fun hs hd => ⟨_, step_of_decodeFailure hs hf hd, rfl⟩⟩

/-- Settles O9: the failing step by its frame; otherwise the decoder's instruction, whose encoding is the word by
`encode_of_decode`. -/
theorem illegalWordIsDecodeFailure : Obligations.IllegalWordIsDecodeFailure := by
  rintro s ⟨hs, hf⟩
  constructor
  · intro hd
    exact ⟨_, step_of_decodeFailure hs hf hd, rfl, rfl, frame_advance_raise s.stepStart _ _ _⟩
  · intro hd
    cases hw : decode s.fetchWord with
    | decodeFailure => exact absurd hw hd
    | instr i => exact ⟨i, rfl, encode_of_decode hw, step_of_decode hs hf hw⟩

/-! ### The tick event (R130) -/

theorem State.tone_iff (s : State) : s.tone = true ↔ s.st.toNat > 0 := decide_eq_true_iff

/-- The tick event: each timer one down or still at 0, nothing else, and the tone by the sound timer. -/
theorem State.tick_counts_down (s : State) :
    s.tick.dt.toNat = s.dt.toNat - 1 ∧ s.tick.st.toNat = s.st.toNat - 1 ∧
      Frame { dt := true, st := true } s s.tick ∧ (s.tick.tone = true ↔ s.tick.st.toNat > 0) := by
  refine ⟨?_, ?_, ?_, s.tick.tone_iff⟩
  all_goals rw [s.tick_eq_ticks_one]
  · exact toNat_countDown s.dt 1
  · exact toNat_countDown s.st 1
  · exact frame_ticks s 1

/-- A core held in reset accepts no tick: its step does not depend on how many have arrived. -/
theorem step_ignores_ticks_in_reset (s : State) {inp : Input} (rest : List Input) (n m : Nat) (hrst : inp.rst = true) :
    step { s with inputs := { inp with ticks := n } :: rest } =
      step { s with inputs := { inp with ticks := m } :: rest } := by
  rw [step_of_reset, step_of_reset]
  · rfl
  · exact hrst
  · exact hrst

/-- Settles O15: the event by the closed form of `n` ticks at 1; the boundaries by what the step is with the host stopped, for
a Faulted core and in reset. -/
theorem tickCountsBothTimersDown : Obligations.TickCountsBothTimersDown := by
  intro s
  refine ⟨s.tick_counts_down, fun hticks hrst hrun hs => ?_, fun t h hrst hs => ?_,
    fun inp rest n hrst => step_ignores_ticks_in_reset s rest n 0 hrst⟩
  · rw [step_of_stopped hrst hrun hs, hticks, State.tick_eq_ticks_one]
  · cases eq_passBoundary_of_step_faulted h hrst hs
    exact ⟨rfl, rfl⟩

end Sys2Proof.Machine
end

section
/-! PROOFS. Return and Jump (spec/41_control_flow.md R141, R142), and the two fetch checks that catch what they may leave in
`pc` (R122): an odd target, and the address 4096 that a Call at 4094 pushes. -/

namespace Sys2Proof.Machine

/-! ### A step whose fetch check fails (R122) -/

/-- The parity check comes first, so it needs no bound on `pc`. -/
theorem step_of_pcMisaligned {s : State} (hs : s.StepEnabled) (hodd : s.pc.toNat % 2 = 1) :
    step s = .next (s.stepStart.raise .pcMisaligned s.pc s.pc) :=
  (step_of_stepEnabled hs).trans (if_pos hodd)

theorem step_of_fetchBounds {s : State} (hs : s.StepEnabled) (heven : s.pc.toNat % 2 = 0) (hhigh : 4094 < s.pc.toNat) :
    step s = .next (s.stepStart.raise .fetchBounds s.pc s.pc) := by
  have hpar : ¬s.stepStart.pc.toNat % 2 = 1 := by
    rw [s.stepStart_pc]
    omega
  calc step s = instructionStep s.stepStart := step_of_stepEnabled hs
    _ = _ := (if_neg hpar).trans (if_pos hhigh)

/-! ### Return (R141) -/

theorem exec_ret_of_no_frame {s : State} (h : s.sp.val = 0) :
    exec .ret s = .next (s.raiseExec .stackUnderflow 0) := if_pos h

theorem exec_ret_of_frame {s : State} {j : Fin 16} (h : s.sp.val = j.val + 1) :
    exec .ret s = .next (s.pop.setPc s.stk[j.val]) := by
  have hne : s.sp.val ≠ 0 := by omega
  rw [← s.top_eq j h]
  exact if_neg hne

/-- Settles O31: Return without a frame and with one; the popped entry is an active one, of which the invariant speaks; and
the range check at 4096. -/
theorem returnPopsThePc : Obligations.ReturnPopsThePc := by
  refine ⟨by decide, fun s => ⟨fun h => ?_, fun j hj => ?_, fun hs hpc => ?_⟩⟩
  · exact ⟨_, exec_ret_of_no_frame h, rfl, frame_raiseExec s _ _⟩
  · have hsp : s.pop.sp.val = j.val := s.pop_sp_val.trans (by omega)
    refine ⟨_, exec_ret_of_frame hj, rfl, hsp, frame_pop s _, fun hinv => ?_⟩
    obtain ⟨heven, -, hle⟩ := hinv.frames j (by omega)
    exact ⟨heven, hle⟩
  · refine ⟨_, step_of_fetchBounds hs (by rw [hpc]; decide) (by rw [hpc]; decide), ?_⟩
    rw [hpc]
    rfl

/-! ### Jump (R142) -/

/-- The encoding `1nnn`. -/
theorem decode_jumpWord (nnn : Addr12) : decode (0x1#4 ++ nnn) = .instr (.jump nnn) := by
  simp only [decode, fieldOp_wordA, fieldNnn_wordA]
  rfl

theorem exec_jump (nnn : Addr12) (s : State) : exec (.jump nnn) s = .next (s.setPc (zextAddr nnn)) := rfl

/-- A Jump to its own address takes back the advance. -/
theorem exec_jump_self {nnn : Addr12} {s : State} (h : s.pc.toNat = nnn.toNat) :
    exec (.jump nnn) s.advance = .next s := by
  have hpc : zextAddr nnn = s.pc := BitVec.eq_of_toNat_eq ((toNat_zextAddr nnn).trans h.symm)
  rw [exec_jump, hpc]
  rfl

/-- Settles O32: the fields of `1nnn`, the frame of a new `pc`, the parity check on an odd target, and the Jump to its own
address. -/
theorem jumpSetsThePc : Obligations.JumpSetsThePc := by
  intro nnn s
  have htarget : (s.setPc (zextAddr nnn)).pc.toNat = nnn.toNat := toNat_zextAddr nnn
  refine ⟨decode_jumpWord nnn, ⟨_, exec_jump nnn s, htarget, frame_setPc s _, fun hodd ht => ?_⟩, exec_jump_self⟩
  exact ⟨_, step_of_pcMisaligned ht (htarget ▸ hodd), rfl⟩

end Sys2Proof.Machine
end

section
/-! PROOFS. Load-imm, the bitwise instructions and what the shifts read (spec/42_load_arith_logic.md R161, R176, R177): one
register written, and the destination of a shift as a function of its old value alone. -/

namespace Sys2Proof

/-! ### Words of groups 6 and 8 -/

/-- The encoding `6xkk`. -/
theorem decode_loadImmWord (x : Nibble) (kk : Byte) : decode (0x6#4 ++ x ++ kk) = .instr (.loadImm x kk) := by
  simp only [decode, fieldOp_wordXK, fieldX_wordXK, fieldKk_wordXK]
  rfl

theorem decode_word8 (x y n : Nibble) : decode (0x8#4 ++ x ++ y ++ n) = decodeGroup8 (0x8#4 ++ x ++ y ++ n) := by
  simp only [decode, fieldOp_wordXYN]
  rfl

/-- The encoding `8xy6`. -/
theorem decode_shiftRightWord (x y : Nibble) : decode (0x8#4 ++ x ++ y ++ 0x6#4) = .instr (.shiftRight x y) := by
  rw [decode_word8]
  simp only [decodeGroup8, fieldN_wordXYN, fieldX_wordXYN, fieldY_wordXYN]
  rfl

/-- The encoding `8xyE`. -/
theorem decode_shiftLeftWord (x y : Nibble) : decode (0x8#4 ++ x ++ y ++ 0xE#4) = .instr (.shiftLeft x y) := by
  rw [decode_word8]
  simp only [decodeGroup8, fieldN_wordXYN, fieldX_wordXYN, fieldY_wordXYN]
  rfl

end Sys2Proof

namespace Sys2Proof.Machine

/-! ### The `y` field replaced -/

theorem toNat_withFieldY (w : Word) (z : Nibble) :
    (withFieldY w z).toNat = w.toNat / 256 * 256 + z.toNat * 16 + w.toNat % 16 := by
  have := w.isLt
  refine (toNat_append_eq (w.extractLsb' 8 8 ++ z) (w.extractLsb' 0 4)).trans ?_
  rw [toNat_append_eq (w.extractLsb' 8 8) z]
  simp only [BitVec.extractLsb'_toNat, Nat.shiftRight_eq_div_pow]
  omega

theorem withFieldY_wordXYN (p x y n z : Nibble) : withFieldY (p ++ x ++ y ++ n) z = p ++ x ++ z ++ n := by
  apply BitVec.eq_of_toNat_eq
  rw [toNat_withFieldY, toNat_wordXYN, toNat_wordXYN]
  have := y.isLt
  have := n.isLt
  omega

theorem decode_withFieldY_of_shiftRight {w : Word} {x y : Nibble} (z : Nibble)
    (h : decode w = .instr (.shiftRight x y)) : decode (withFieldY w z) = .instr (.shiftRight x z) := by
  have hw : 0x8#4 ++ x ++ y ++ 0x6#4 = w := encode_of_decode h
  rw [← hw, withFieldY_wordXYN, decode_shiftRightWord]

theorem decode_withFieldY_of_shiftLeft {w : Word} {x y : Nibble} (z : Nibble)
    (h : decode w = .instr (.shiftLeft x y)) : decode (withFieldY w z) = .instr (.shiftLeft x z) := by
  have hw : 0x8#4 ++ x ++ y ++ 0xE#4 = w := encode_of_decode h
  rw [← hw, withFieldY_wordXYN, decode_shiftLeftWord]

/-! ### One register after a write -/

theorem State.getV_setV_self (s : State) (x : Nibble) (b : Byte) : (s.setV x b).getV x = b :=
  (s.getV_setV x x b).trans (if_pos rfl)

theorem State.getV_setV_of_ne {x r : Nibble} (h : x ≠ r) (s : State) (b : Byte) : (s.setV x b).getV r = s.getV r :=
  (s.getV_setV x r b).trans (if_neg h.symm)

/-- The destination is written after the flag, so it holds the result even where it is `VF` (R173). -/
theorem State.getV_flagThenResult_self (s : State) (x : Nibble) (c : Bool) (b : Byte) :
    (s.flagThenResult x c b).getV x = b :=
  (s.getV_flagThenResult x x c b).trans (if_pos rfl)

/-! ### Load-imm (R161) -/

theorem exec_loadImm (x : Nibble) (kk : Byte) (s : State) : exec (.loadImm x kk) s = .next (s.setV x kk) := rfl

/-- Settles O39: the fields of `6xkk`, and the value and the frame of one register write. -/
theorem loadImmWritesItsRegister : Obligations.LoadImmWritesItsRegister := fun x kk s =>
  ⟨decode_loadImmWord x kk, _, exec_loadImm x kk s, s.getV_setV_self x kk, frame_setV s x kk⟩

/-! ### Or, And and Xor (R164 to R166, R176) -/

theorem exec_orReg (x y : Nibble) (s : State) :
    exec (.orReg x y) s = .next (s.setV x (s.getV x ||| s.getV y)) := rfl

theorem exec_andReg (x y : Nibble) (s : State) :
    exec (.andReg x y) s = .next (s.setV x (s.getV x &&& s.getV y)) := rfl

theorem exec_xorReg (x y : Nibble) (s : State) :
    exec (.xorReg x y) s = .next (s.setV x (s.getV x ^^^ s.getV y)) := rfl

/-- What an instruction that writes only `V[x]` leaves: the bits it wrote, and every other register, `VF` among them. -/
theorem bits_flag_frame_of_exec_setV {i : Instr} {s : State} {x : Nibble} {v : Byte} {bit : Nat → Bool}
    (he : exec i s = .next (s.setV x v)) (hv : ∀ b, v.getLsbD b = bit b) :
    ∃ t, exec i s = .next t ∧ (∀ b, (t.getV x).getLsbD b = bit b) ∧ (x ≠ 15 → t.getV 15 = s.getV 15) ∧
      Frame { regs := [x] } s t := by
  refine ⟨_, he, fun b => ?_, fun hx => State.getV_setV_of_ne hx s v, frame_setV s x v⟩
  rw [s.getV_setV_self, hv]

/-- Settles O41: each of the three writes only `V[x]`, with a value whose bits are known. -/
theorem logicLeavesTheFlag : Obligations.LogicLeavesTheFlag := fun x y s =>
  ⟨bits_flag_frame_of_exec_setV (exec_orReg x y s) fun _ => BitVec.getLsbD_or,
    bits_flag_frame_of_exec_setV (exec_andReg x y s) fun _ => BitVec.getLsbD_and,
    bits_flag_frame_of_exec_setV (exec_xorReg x y s) fun _ => BitVec.getLsbD_xor⟩

/-! ### The shifts (R169, R171, R177) -/

theorem exec_shiftRight (x y : Nibble) (s : State) :
    exec (.shiftRight x y) s =
      .next (s.flagThenResult x (shiftedOutRight (s.getV x)) (shiftRightByte (s.getV x))) := rfl

theorem exec_shiftLeft (x y : Nibble) (s : State) :
    exec (.shiftLeft x y) s =
      .next (s.flagThenResult x (shiftedOutLeft (s.getV x)) (shiftLeftByte (s.getV x))) := rfl

/-- An instruction whose destination becomes a function of the destination's old value gives the same from two states that
agree on that register. -/
theorem BothEndIn.of_flagThenResult {i : Instr} {x : Nibble} {flag : Byte → Bool} {result : Byte → Byte}
    (he : ∀ s, exec i s = .next (s.flagThenResult x (flag (s.getV x)) (result (s.getV x)))) {s s' : State}
    (hx : s'.getV x = s.getV x) : BothEndIn (fun t u => u.getV x = t.getV x) (exec i s) (exec i s') := by
  refine ⟨_, _, he s, he s', ?_⟩
  simp only [State.getV_flagThenResult_self, hx]

/-- Settles O45: the word of a shift is its encoding (`encode_of_decode`), so its `y` field is known and can be replaced;
neither meaning takes `y`; and the shifted value is a function of `V[x]`, which a write to another register keeps. -/
theorem shiftsUseOneRegister : Obligations.ShiftsUseOneRegister := by
  intro w x y z r b s hr
  have hx : (s.setV r b).getV x = s.getV x := State.getV_setV_of_ne hr s b
  exact ⟨decode_withFieldY_of_shiftRight z, decode_withFieldY_of_shiftLeft z,
    (exec_shiftRight x y s).trans (exec_shiftRight x z s).symm, (exec_shiftLeft x y s).trans (exec_shiftLeft x z s).symm,
    BothEndIn.of_flagThenResult (exec_shiftRight x y) hx, BothEndIn.of_flagThenResult (exec_shiftLeft x y) hx⟩

end Sys2Proof.Machine
end

section
/-! PROOFS. Load-address (spec/43_index_memory.md R191): its word, and the address register it leaves. -/

namespace Sys2Proof

/-- The encoding `Annn`. -/
theorem decode_loadAddressWord (nnn : Addr12) : decode (0xA#4 ++ nnn) = .instr (.loadAddress nnn) := by
  simp only [decode, fieldOp_wordA, fieldNnn_wordA]
  rfl

end Sys2Proof

namespace Sys2Proof.Machine

/-- A zero-extended address is a RAM address. -/
theorem toNat_zextAddr_le (nnn : Addr12) : (zextAddr nnn).toNat ≤ 4095 := by
  rw [toNat_zextAddr]
  exact Nat.le_of_lt_succ nnn.isLt

theorem exec_loadAddress (nnn : Addr12) (s : State) :
    exec (.loadAddress nnn) s = .next (s.setI (zextAddr nnn)) := rfl

/-- Settles O46: the fields of `Annn`, the value of a zero-extended address, and the frame of a new `I`. -/
theorem loadAddressSetsI : Obligations.LoadAddressSetsI := fun nnn s =>
  ⟨decode_loadAddressWord nnn, _, exec_loadAddress nnn s, toNat_zextAddr nnn, toNat_zextAddr_le nnn, frame_setI s _⟩

end Sys2Proof.Machine
end

section
/-! PROOFS. Where an odd `pc` comes from (spec/60_exceptions.md R258): the parity of `pc` after each instruction and after
each step that executes none. -/

namespace Sys2Proof.Machine

/-! ### The parity of an advanced `pc` -/

/-- An advance, the common one or a skip's, keeps the parity even where it wraps. -/
theorem toNat_add_two_mod_two (w : Word) : (w + 2).toNat % 2 = w.toNat % 2 := by
  rw [BitVec.toNat_add, show (2 : Word).toNat = 2 from rfl]
  omega

theorem State.parity_advance_pc (s : State) : s.advance.pc.toNat % 2 = s.pc.toNat % 2 := toNat_add_two_mod_two s.pc

theorem State.parity_skipIf_pc (s : State) (c : Bool) : (s.skipIf c).pc.toNat % 2 = s.pc.toNat % 2 := by
  cases c with
  | false => rfl
  | true => exact toNat_add_two_mod_two s.pc

/-! ### The parity of `pc` after an instruction -/

theorem exec_jumpIndexed (nnn : Addr12) (s : State) :
    exec (.jumpIndexed nnn) s = .next (s.setPc (zextAddr nnn + zextByte (s.getV 0))) := rfl

/-- The target of a Jump-indexed has the parity of the exact sum. -/
theorem parity_indexed_target (nnn : Addr12) (b : Byte) :
    (zextAddr nnn + zextByte b).toNat % 2 = (nnn.toNat + b.toNat) % 2 := by
  rw [BitVec.toNat_add, toNat_zextAddr, toNat_zextByte]
  omega

/-- Return resumes at the top active frame, which is even, or fails and leaves `pc` as it was. -/
theorem even_pc_of_exec_ret {s t : State} (hframes : ∀ j : Fin 16, j.val < s.sp.val → ReturnAddress s.stk[j.val])
    (heven : s.pc.toNat % 2 = 0) (h : exec .ret s = .next t) : t.pc.toNat % 2 = 0 := by
  by_cases hsp : s.sp.val = 0
  · cases (exec_ret_of_no_frame hsp).symm.trans h
    exact heven
  · obtain ⟨j, hj⟩ : ∃ j : Fin 16, s.sp.val = j.val + 1 :=
      ⟨⟨s.sp.val - 1, by omega⟩, (Nat.succ_pred_eq_of_ne_zero hsp).symm⟩
    cases (exec_ret_of_frame hj).symm.trans h
    obtain ⟨htop, -, -⟩ := hframes j (by omega)
    exact htop

/-- Call goes to its target, or fails and leaves `pc` as it was. -/
theorem exec_call_keeps_pc_or_ends_at_target (nnn : Addr12) (s : State) :
    EndsIn (fun t => t.pc = s.pc ∨ t.pc = zextAddr nnn) (exec (.call nnn) s) :=
  .dite (fun _ => .next (.inl rfl)) fun _ => .next (.inr rfl)

/-- In `s` the instruction is one of the three of R258, and its target is odd. -/
def JumpsToOdd (s : State) (i : Instr) : Prop :=
  ∃ nnn : Addr12,
    (i = .jump nnn ∧ nnn.toNat % 2 = 1) ∨
    (i = .call nnn ∧ nnn.toNat % 2 = 1) ∨
    (i = .jumpIndexed nnn ∧ (nnn.toNat + (s.getV 0).toNat) % 2 = 1)

/-- An instruction that takes `pc` from even to odd jumps to an odd target: a Return resumes at an even frame, a skip adds 2,
and the instructions that are none of these have no `pc` in their footprint. -/
theorem jumpsToOdd_of_exec {i : Instr} {s t : State}
    (hframes : ∀ j : Fin 16, j.val < s.sp.val → ReturnAddress s.stk[j.val]) (heven : s.pc.toNat % 2 = 0)
    (h : exec i s = .next t) (hodd : t.pc.toNat % 2 = 1) : JumpsToOdd s i := by
  have hchanged : t.pc.toNat % 2 ≠ s.pc.toNat % 2 := by omega
  cases i with
  | jump nnn =>
    cases (exec_jump nnn s).symm.trans h
    exact ⟨nnn, .inl ⟨rfl, by simpa using hodd⟩⟩
  | call nnn =>
    obtain hpc | hpc := (exec_call_keeps_pc_or_ends_at_target nnn s).of_eq_next h
    · exact absurd (by rw [hpc]) hchanged
    · exact ⟨nnn, .inr (.inl ⟨rfl, by simpa [hpc] using hodd⟩)⟩
  | jumpIndexed nnn =>
    cases (exec_jumpIndexed nnn s).symm.trans h
    exact ⟨nnn, .inr (.inr ⟨rfl, (parity_indexed_target nnn _).symm.trans hodd⟩)⟩
  | ret =>
    have := even_pc_of_exec_ret hframes heven h
    omega
  | skipEqImm | skipNeqImm | skipEqReg | skipNeqReg | skipIfPressed | skipIfNotPressed =>
    cases h
    exact absurd (s.parity_skipIf_pc _) hchanged
  | _ => exact absurd (by rw [(frame_of_exec h).pc rfl]) hchanged

/-! ### The parity of `pc` after a step -/

@[simp] theorem State.ticks_pc (s : State) (n : Nat) : (s.ticks n).pc = s.pc := rfl
@[simp] theorem State.raise_pc (s : State) (c : Cause) (p n : Word) : (s.raise c p n).pc = s.pc := rfl

@[simp] theorem State.poll_pc (s : State) (x : Nibble) : (s.poll x).pc = s.pc := by
  unfold State.poll
  split <;> rfl

@[simp] theorem State.loaderWrite_pc (s : State) (load : Option (Addr12 × Byte)) : (s.loaderWrite load).pc = s.pc := by
  cases load <;> rfl

/-- A step that executes no instruction resets `pc`, keeps it or advances it, so it keeps an even `pc` even. -/
theorem even_pc_or_executes_of_step {s t : State} (heven : s.pc.toNat % 2 = 0) (h : step s = .next t) :
    t.pc.toNat % 2 = 0 ∨ ∃ i, s.issued = some i ∧ exec i s.stepStart.advance = .next t := by
  obtain ⟨-, rfl⟩ | ⟨-, -, -, rfl⟩ | ⟨-, -, -, rfl⟩ | ⟨x, -, -, -, rfl⟩ | ⟨-, -, -, -, c, -, rfl⟩ |
    ⟨-, -, -, -, -, rfl⟩ | he := step_cases h
  · exact .inl (by simp)
  · exact .inl (by simpa using heven)
  · exact .inl (by simpa using heven)
  · exact .inl (by simpa using heven)
  · exact .inl (by simpa using heven)
  · exact .inl (s.stepStart.parity_advance_pc.trans heven)
  · exact .inr he

/-- Settles O11: the parity check, which comes first in a step; and, for a step that makes `pc` odd, the instruction it
executes from the advanced `pc`, which is even still, with the frames of which the invariant speaks. -/
theorem oddPcComesOnlyFromJumps : Obligations.OddPcComesOnlyFromJumps := by
  refine ⟨fun s hs hodd => ⟨_, step_of_pcMisaligned hs hodd, rfl⟩, fun s t hinv heven h hodd => ?_⟩
  obtain hkept | ⟨i, hi, he⟩ := even_pc_or_executes_of_step heven h
  · omega
  · have hadvanced : s.stepStart.advance.pc.toNat % 2 = 0 := s.stepStart.parity_advance_pc.trans heven
    have hjump : JumpsToOdd s i := jumpsToOdd_of_exec (s := s.stepStart.advance) hinv.frames hadvanced he hodd
    simpa only [hi, Option.some.injEq, JumpsToOdd] using hjump

end Sys2Proof.Machine
end

section
/-! PROOFS. The reset vector (spec/70_reset_and_hazards.md R292): where `pc` stands after a step in reset, with or without a
loader write, and the word that the next step fetches from there. -/

namespace Sys2Proof.Machine

/-- The word to fetch (R123), by the address in `pc`. -/
theorem State.fetchWord_of_toNat_pc {s : State} {a : Nat} (hpc : s.pc.toNat = a) :
    s.fetchWord = wordOfBytes (Memory.read s.mem a) (Memory.read s.mem (a + 1)) := by
  rw [State.fetchWord, hpc]

/-- The loader port does not move `pc` from the reset vector. -/
theorem State.pc_resetEvent_loaderWrite (s : State) (load : Option (Addr12 × Byte)) :
    (s.resetEvent.loaderWrite load).pc = 0x200 :=
  (s.resetEvent.loaderWrite_pc load).trans s.resetEvent_pc

/-- Settles O19: a step in reset is the reset event and a loader write, which leave `pc` at the vector; the fetch reads the
two bytes there, after the loader's write. -/
theorem resetVectorIs200 : Obligations.ResetVectorIs200 := by
  refine ⟨rfl, fun s hrst => ⟨_, step_of_reset hrst, ?_⟩⟩
  have hpc := s.passBoundary.pc_resetEvent_loaderWrite s.sampled.load
  have haddr : (s.passBoundary.resetEvent.loaderWrite s.sampled.load).pc.toNat = 0x200 := by rw [hpc]; rfl
  exact ⟨hpc, State.fetchWord_of_toNat_pc haddr⟩

end Sys2Proof.Machine
end

section
/-! PROOFS. Decoder, encoder and opcode map (spec/30_encoding.md R95 to R103): an encoding decodes to its instruction,
group by group along the dispatch; a word that a row accepts is the encoding of an instruction; the rows are disjoint.
-/

namespace Sys2Proof

/-! ### Decode after encode -/

theorem decode_wordE (x : Nibble) (k : Byte) : decode (0xE#4 ++ x ++ k) = decodeGroupE (0xE#4 ++ x ++ k) := by
  simp only [decode, fieldOp_wordXK]
  rfl

theorem decode_wordF (x : Nibble) (k : Byte) : decode (0xF#4 ++ x ++ k) = decodeGroupF (0xF#4 ++ x ++ k) := by
  simp only [decode, fieldOp_wordXK]
  rfl

/-- No operand bit is lost. The encoding clauses of the instructions' statements are this one, at an instruction each.
-/
theorem decode_encode (i : Instr) : decode (encode i) = .instr i := by
  cases i with
  | clear | ret => rfl
  | jump nnn | call nnn | loadAddress nnn | jumpIndexed nnn =>
    simp only [encode, decode, fieldOp_wordA, fieldNnn_wordA]
    rfl
  | skipEqImm x kk | skipNeqImm x kk | loadImm x kk | addImm x kk | random x kk =>
    simp only [encode, decode, fieldOp_wordXK, fieldX_wordXK, fieldKk_wordXK]
    rfl
  | skipEqReg x y | skipNeqReg x y =>
    simp only [encode, decode, decodeStrict, fieldOp_wordXYN, fieldX_wordXYN, fieldY_wordXYN, fieldN_wordXYN]
    rfl
  | loadReg x y | orReg x y | andReg x y | xorReg x y | addReg x y | subReg x y | shiftRight x y | subNegated x y
  | shiftLeft x y =>
    rw [encode, decode_word8]
    simp only [decodeGroup8, fieldX_wordXYN, fieldY_wordXYN, fieldN_wordXYN]
    rfl
  | draw x y n =>
    simp only [encode, decode, fieldOp_wordXYN, fieldX_wordXYN, fieldY_wordXYN, fieldN_wordXYN]
    rfl
  | skipIfPressed x | skipIfNotPressed x =>
    rw [encode, decode_wordE]
    simp only [decodeGroupE, fieldX_wordXK, fieldKk_wordXK]
    rfl
  | loadDelay x | loadKey x | setDelay x | setSound x | addToIndex x | loadFontAddress x | storeBcd x | storeRegisters x
  | loadRegisters x =>
    rw [encode, decode_wordF]
    simp only [decodeGroupF, fieldX_wordXK, fieldKk_wordXK]
    rfl

/-- Settles O3 by `decode_encode`, the case split over the 34 instructions. -/
theorem encodedInstructionDecodesToItself : Obligations.EncodedInstructionDecodesToItself := decode_encode

/-- Settles O4 by `encode_of_decode`, which follows the dispatch of the decoder. -/
theorem decodedWordIsItsEncoding : Obligations.DecodedWordIsItsEncoding := fun _ _ => encode_of_decode

/-- Settles O1: the legal words are encodings; the illegal ones are computed. -/
theorem wordsOfTheSpecDecode : Obligations.WordsOfTheSpecDecode := by
  refine ⟨decode_encode .clear, decode_encode .ret, decode_encode (.jump 0xABC), decode_encode (.skipEqImm 10 0x7F),
    decode_encode (.loadImm 3 0x05), decode_encode (.subNegated 10 11), decode_encode (.loadAddress 0x2F0),
    decode_encode (.draw 0 1 5), decode_encode (.skipIfNotPressed 1), decode_encode (.loadKey 3),
    decode_encode (.loadRegisters 15), ?_⟩
  decide

/-! ### The opcode map -/

theorem row_mem_opcodeMap (i : Instr) : i.row ∈ opcodeMap := by
  cases i <;> simp [Instr.row, opcodeMap]

theorem row_accepts_encode (i : Instr) : i.row.accepts (encode i) = true := by
  cases i with
  | clear => exact Laws.FixedBits.clear
  | ret => exact Laws.FixedBits.ret
  | jump nnn => exact Laws.FixedBits.jump nnn
  | call nnn => exact Laws.FixedBits.call nnn
  | skipEqImm x kk => exact Laws.FixedBits.skipEqImm x kk
  | skipNeqImm x kk => exact Laws.FixedBits.skipNeqImm x kk
  | skipEqReg x y => exact Laws.FixedBits.skipEqReg x y
  | loadImm x kk => exact Laws.FixedBits.loadImm x kk
  | addImm x kk => exact Laws.FixedBits.addImm x kk
  | loadReg x y => exact Laws.FixedBits.loadReg x y
  | orReg x y => exact Laws.FixedBits.orReg x y
  | andReg x y => exact Laws.FixedBits.andReg x y
  | xorReg x y => exact Laws.FixedBits.xorReg x y
  | addReg x y => exact Laws.FixedBits.addReg x y
  | subReg x y => exact Laws.FixedBits.subReg x y
  | shiftRight x y => exact Laws.FixedBits.shiftRight x y
  | subNegated x y => exact Laws.FixedBits.subNegated x y
  | shiftLeft x y => exact Laws.FixedBits.shiftLeft x y
  | skipNeqReg x y => exact Laws.FixedBits.skipNeqReg x y
  | loadAddress nnn => exact Laws.FixedBits.loadAddress nnn
  | jumpIndexed nnn => exact Laws.FixedBits.jumpIndexed nnn
  | random x kk => exact Laws.FixedBits.random x kk
  | draw x y n => exact Laws.FixedBits.draw x y n
  | skipIfPressed x => exact Laws.FixedBits.skipIfPressed x
  | skipIfNotPressed x => exact Laws.FixedBits.skipIfNotPressed x
  | loadDelay x => exact Laws.FixedBits.loadDelay x
  | loadKey x => exact Laws.FixedBits.loadKey x
  | setDelay x => exact Laws.FixedBits.setDelay x
  | setSound x => exact Laws.FixedBits.setSound x
  | addToIndex x => exact Laws.FixedBits.addToIndex x
  | loadFontAddress x => exact Laws.FixedBits.loadFontAddress x
  | storeBcd x => exact Laws.FixedBits.storeBcd x
  | storeRegisters x => exact Laws.FixedBits.storeRegisters x
  | loadRegisters x => exact Laws.FixedBits.loadRegisters x

/-- The row of the decoded instruction accepts the word. -/
theorem row_accepts_of_decode {w : Word} {i : Instr} (h : decode w = .instr i) : i.row.accepts w = true := by
  rw [← encode_of_decode h]
  exact row_accepts_encode i

/-! ### A word that a row accepts is an encoding, its operands the word's fields -/

section accepted

variable {w : Word} {p n : Nibble} {k : Byte}

theorem wordA_of_accepts (h : OpcodeRow.accepts ⟨0xF000, p ++ (0#12)⟩ w = true) : p ++ fieldNnn w = w :=
  wordA_eq_of_fieldOp ((accepts_F000 w p).mp h)

theorem wordXK_of_accepts (h : OpcodeRow.accepts ⟨0xF000, p ++ (0#12)⟩ w = true) : p ++ fieldX w ++ fieldKk w = w :=
  wordXK_eq_of_fieldOp ((accepts_F000 w p).mp h)

theorem wordXYN_of_accepts (h : OpcodeRow.accepts ⟨0xF000, p ++ (0#12)⟩ w = true) :
    p ++ fieldX w ++ fieldY w ++ fieldN w = w :=
  wordXYN_eq_of_fieldOp ((accepts_F000 w p).mp h)

theorem wordXY_of_accepts (h : OpcodeRow.accepts ⟨0xF00F, p ++ (0#4) ++ (0#4) ++ n⟩ w = true) :
    p ++ fieldX w ++ fieldY w ++ n = w := by
  obtain ⟨hop, hn⟩ := (accepts_F00F w p n).mp h
  exact wordXYN_eq_of_fields hop hn

theorem wordX_of_accepts (h : OpcodeRow.accepts ⟨0xF0FF, p ++ (0#4) ++ k⟩ w = true) : p ++ fieldX w ++ k = w := by
  obtain ⟨hop, hk⟩ := (accepts_F0FF w p k).mp h
  exact wordXK_eq_of_fields hop hk

end accepted

/-- Row by row of the map: a word it accepts is the encoding of some instruction. -/
theorem exists_encode_of_accepts (w : Word) : ∀ r ∈ opcodeMap, r.accepts w = true → ∃ i, encode i = w := by
  simp only [opcodeMap, List.forall_mem_append, List.forall_mem_cons]
  refine ⟨⟨⟨⟨fun h => ⟨.clear, ((accepts_FFFF w _).mp h).symm⟩, fun h => ⟨.ret, ((accepts_FFFF w _).mp h).symm⟩,
    fun h => ⟨.jump _, wordA_of_accepts h⟩,
    fun h => ⟨.call _, wordA_of_accepts h⟩,
    fun h => ⟨.skipEqImm _ _, wordXK_of_accepts h⟩,
    fun h => ⟨.skipNeqImm _ _, wordXK_of_accepts h⟩,
    fun h => ⟨.skipEqReg _ _, wordXY_of_accepts h⟩,
    fun h => ⟨.loadImm _ _, wordXK_of_accepts h⟩,
    fun h => ⟨.addImm _ _, wordXK_of_accepts h⟩,
    nofun⟩,
    ⟨fun h => ⟨.loadReg _ _, wordXY_of_accepts h⟩,
    fun h => ⟨.orReg _ _, wordXY_of_accepts h⟩,
    fun h => ⟨.andReg _ _, wordXY_of_accepts h⟩,
    fun h => ⟨.xorReg _ _, wordXY_of_accepts h⟩,
    fun h => ⟨.addReg _ _, wordXY_of_accepts h⟩,
    fun h => ⟨.subReg _ _, wordXY_of_accepts h⟩,
    fun h => ⟨.shiftRight _ _, wordXY_of_accepts h⟩,
    fun h => ⟨.subNegated _ _, wordXY_of_accepts h⟩,
    fun h => ⟨.shiftLeft _ _, wordXY_of_accepts h⟩,
    fun h => ⟨.skipNeqReg _ _, wordXY_of_accepts h⟩,
    nofun⟩⟩,
    ⟨fun h => ⟨.loadAddress _, wordA_of_accepts h⟩,
    fun h => ⟨.jumpIndexed _, wordA_of_accepts h⟩,
    fun h => ⟨.random _ _, wordXK_of_accepts h⟩,
    fun h => ⟨.draw _ _ _, wordXYN_of_accepts h⟩,
    fun h => ⟨.skipIfPressed _, wordX_of_accepts h⟩,
    fun h => ⟨.skipIfNotPressed _, wordX_of_accepts h⟩,
    nofun⟩⟩,
    ⟨fun h => ⟨.loadDelay _, wordX_of_accepts h⟩,
    fun h => ⟨.loadKey _, wordX_of_accepts h⟩,
    fun h => ⟨.setDelay _, wordX_of_accepts h⟩,
    fun h => ⟨.setSound _, wordX_of_accepts h⟩,
    fun h => ⟨.addToIndex _, wordX_of_accepts h⟩,
    fun h => ⟨.loadFontAddress _, wordX_of_accepts h⟩,
    fun h => ⟨.storeBcd _, wordX_of_accepts h⟩,
    fun h => ⟨.storeRegisters _, wordX_of_accepts h⟩,
    fun h => ⟨.loadRegisters _, wordX_of_accepts h⟩,
    nofun⟩⟩

/-- The decoder fails exactly on the words that no row accepts (R103). -/
theorem decode_eq_decodeFailure_iff (w : Word) : decode w = .decodeFailure ↔ wellFormedWord w = false := by
  rw [wellFormedWord, List.any_eq_false]
  constructor
  · intro hfail r hr hacc
    obtain ⟨i, rfl⟩ := exists_encode_of_accepts w r hr hacc
    exact Decoded.noConfusion ((decode_encode i).symm.trans hfail)
  · intro hnone
    cases hd : decode w with
    | decodeFailure => rfl
    | instr i => exact absurd (row_accepts_of_decode hd) (hnone i.row (row_mem_opcodeMap i))

/-! ### No two rows accept one word -/

/-- Two rows that accept one word agree on the bits both of them fix. -/
theorem OpcodeRow.match_and_mask_eq {r q : OpcodeRow} {w : Word} (hr : r.accepts w = true) (hq : q.accepts w = true) :
    r.matchBits &&& q.mask = q.matchBits &&& r.mask := by
  simp only [OpcodeRow.accepts, beq_iff_eq] at hr hq
  rw [← hr, ← hq, BitVec.and_assoc, BitVec.and_assoc, BitVec.and_comm r.mask]

/-- Any two rows of the map differ in a bit that both of them fix. -/
theorem opcodeMap_pairwise_match_ne :
    opcodeMap.Pairwise fun r q => r.matchBits &&& q.mask ≠ q.matchBits &&& r.mask := by
  decide

theorem opcodeMap_disjoint (w : Word) :
    opcodeMap.Pairwise fun r q => ¬(r.accepts w = true ∧ q.accepts w = true) :=
  opcodeMap_pairwise_match_ne.imp fun hne ⟨hr, hq⟩ => hne (OpcodeRow.match_and_mask_eq hr hq)

/-- Settles O5: the decoded instruction's row accepts the word; a failing word is no encoding, and a word that a row
accepts is one; two rows of the map fix some bit differently. -/
theorem decoderFollowsTheOpcodeMap : Obligations.DecoderFollowsTheOpcodeMap := fun w =>
  ⟨fun i h => ⟨row_mem_opcodeMap i, row_accepts_of_decode h⟩, decode_eq_decodeFailure_iff w, opcodeMap_disjoint w⟩

end Sys2Proof
end

section
/-! PROOFS. The four instructions that access RAM through `I` (spec/20_memory.md R65; spec/43_index_memory.md R194 to
R197; spec/44_display.md R212): one equation each, and its two outcomes. -/

namespace Sys2Proof.Machine

/-- The framebuffer that a Draw leaves, and whether it collided. -/
def State.blit (s : State) (x y n : Nibble) : Blit := drawSprite s.fb (s.getV x) (s.getV y) (s.spriteRows n)

/-- The state that a Draw inside the RAM leaves. -/
def State.drawn (s : State) (x y n : Nibble) : State := (s.setFb (s.blit x y n).1).setFlag (s.blit x y n).2

/-- The state that a store of a run of bytes at `I` leaves. -/
def State.stored (s : State) (bs : List Byte) : State := s.setMem (Memory.writeRun s.mem (s.dataAddr 0) bs)

@[simp] theorem State.stored_i (s : State) (bs : List Byte) : (s.stored bs).i = s.i := rfl

theorem State.stored_mem (s : State) (bs : List Byte) : (s.stored bs).mem = Memory.writeRun s.mem s.i.toNat bs := rfl

section

variable (x y n : Nibble) (s : State)

theorem exec_draw :
    exec (.draw x y n) s = if s.outOfBounds n.toNat then .next s.raiseBounds else .next (s.drawn x y n) := rfl

theorem exec_storeBcd :
    exec (.storeBcd x) s =
      if s.outOfBounds 3 then .next s.raiseBounds else .next (s.stored (bcdDigits (s.getV x))) := rfl

theorem exec_storeRegisters :
    exec (.storeRegisters x) s =
      if s.outOfBounds (x.toNat + 1) then .next s.raiseBounds else .next (s.stored (s.regsUpTo x)) := rfl

theorem exec_loadRegisters :
    exec (.loadRegisters x) s =
      if s.outOfBounds (x.toNat + 1) then .next s.raiseBounds else .next (s.setAllV (s.loadedRegs x)) := rfl

end

section inRange

variable {x y n : Nibble} {s : State}

theorem exec_draw_inRange (h : n.toNat = 0 ∨ s.i.toNat + (n.toNat - 1) ≤ 4095) :
    exec (.draw x y n) s = .next (s.drawn x y n) := by
  rw [exec_draw, (s.outOfBounds_eq_false_iff _).mpr h]
  rfl

theorem exec_storeBcd_inRange (h : s.i.toNat + 2 ≤ 4095) :
    exec (.storeBcd x) s = .next (s.stored (bcdDigits (s.getV x))) := by
  rw [exec_storeBcd, (s.outOfBounds_eq_false_iff 3).mpr (.inr h)]
  rfl

theorem exec_storeRegisters_inRange (h : s.i.toNat + x.toNat ≤ 4095) :
    exec (.storeRegisters x) s = .next (s.stored (s.regsUpTo x)) := by
  rw [exec_storeRegisters, (s.outOfBounds_eq_false_iff (x.toNat + 1)).mpr (.inr h)]
  rfl

theorem exec_loadRegisters_inRange (h : s.i.toNat + x.toNat ≤ 4095) :
    exec (.loadRegisters x) s = .next (s.setAllV (s.loadedRegs x)) := by
  rw [exec_loadRegisters, (s.outOfBounds_eq_false_iff (x.toNat + 1)).mpr (.inr h)]
  rfl

end inRange

/-- The record of an access that leaves the RAM, and that nothing else changes (decision D8). -/
theorem boundsFailure_of_eq_raiseBounds {s : State} {o : Host.Outcome State Fault Refusal} (h : o = .next s.raiseBounds) :
    ∃ t info, o = .next t ∧ t.status = .faulted .boundsFailure (s.pc - 2) info ∧ info.toNat = max s.i.toNat 4096 ∧
      Frame { status := true } s t :=
  ⟨_, s.boundsInfo, h, rfl, s.toNat_boundsInfo, frame_raiseBounds s⟩

/-- Settles O48: each of the four fails before any effect. -/
theorem outOfRangeAccessIsBoundsFailure : Obligations.OutOfRangeAccessIsBoundsFailure := by
  refine fun x y n s => ⟨fun hn h => ?_, fun h => ?_, fun h => ⟨?_, ?_⟩⟩
  · exact boundsFailure_of_eq_raiseBounds (if_pos ((s.outOfBounds_iff n.toNat).mpr ⟨hn, h⟩))
  · exact boundsFailure_of_eq_raiseBounds (if_pos ((s.outOfBounds_iff 3).mpr ⟨by decide, h⟩))
  · exact boundsFailure_of_eq_raiseBounds (if_pos ((s.outOfBounds_iff (x.toNat + 1)).mpr ⟨by omega, h⟩))
  · exact boundsFailure_of_eq_raiseBounds (if_pos ((s.outOfBounds_iff (x.toNat + 1)).mpr ⟨by omega, h⟩))

/-! ### Store-BCD (R194) -/

theorem toNat_hundreds (b : Byte) : (BitVec.ofNat 8 (b.toNat / 100)).toNat = b.toNat / 100 := by
  have := b.isLt
  rw [BitVec.toNat_ofNat]
  omega

theorem toNat_tens (b : Byte) : (BitVec.ofNat 8 (b.toNat % 100 / 10)).toNat = b.toNat % 100 / 10 := by
  rw [BitVec.toNat_ofNat]
  omega

theorem toNat_ones (b : Byte) : (BitVec.ofNat 8 (b.toNat % 10)).toNat = b.toNat % 10 := by
  rw [BitVec.toNat_ofNat]
  omega

/-- A byte of a stored run. -/
theorem State.read_stored {s : State} (hw : Memory.wf s.mem) {bs : List Byte} (hin : s.i.toNat + bs.length ≤ 4096) {j : Nat}
    (hj : j < bs.length) : Memory.read (s.stored bs).mem (s.i.toNat + j) = bs[j] :=
  Memory.read_writeRun_inside hw bs s.i.toNat hin j hj

/-- The three digits that a Store-BCD leaves at `I`, `I + 1` and `I + 2`. -/
theorem digits_of_stored_bcd {s : State} (hw : Memory.wf s.mem) (hin : s.i.toNat + 2 ≤ 4095) (b : Byte) :
    (Memory.read (s.stored (bcdDigits b)).mem s.i.toNat).toNat = b.toNat / 100 ∧
    (Memory.read (s.stored (bcdDigits b)).mem (s.i.toNat + 1)).toNat = b.toNat % 100 / 10 ∧
    (Memory.read (s.stored (bcdDigits b)).mem (s.i.toNat + 2)).toNat = b.toNat % 10 := by
  have hrun : s.i.toNat + (bcdDigits b).length ≤ 4096 := Nat.succ_le_succ hin
  refine ⟨?_, ?_, ?_⟩
  · exact (congrArg BitVec.toNat (State.read_stored hw hrun (show 0 < 3 by decide))).trans (toNat_hundreds b)
  · exact (congrArg BitVec.toNat (State.read_stored hw hrun (show 1 < 3 by decide))).trans (toNat_tens b)
  · exact (congrArg BitVec.toNat (State.read_stored hw hrun (show 2 < 3 by decide))).trans (toNat_ones b)

/-- Settles O49: the three bytes of the stored run, and its frame. -/
theorem storeBcdWritesThreeDigits : Obligations.StoreBcdWritesThreeDigits := by
  intro x s hw hin
  obtain ⟨hundreds, tens, ones⟩ := digits_of_stored_bcd hw hin (s.getV x)
  exact ⟨decode_encode (.storeBcd x), _, exec_storeBcd_inRange hin, hundreds, tens, ones,
    frame_store s (bcdDigits (s.getV x))⟩

/-! ### Store-registers and Load-registers (R195, R196, R199) -/

/-- Settles O50: the bytes of the stored run, and its frame. -/
theorem storeRegistersWritesARun : Obligations.StoreRegistersWritesARun := fun x s hw hin =>
  ⟨decode_encode (.storeRegisters x), _, exec_storeRegisters_inRange hin, State.read_storedRegs hw hin, frame_storeRegs s x⟩

/-- Settles O51: the registers up to `x`, those above, and the frame. -/
theorem loadRegistersReadsARun : Obligations.LoadRegistersReadsARun := by
  refine fun x s hin => ⟨decode_encode (.loadRegisters x), _, exec_loadRegisters_inRange hin, fun j hj => ?_, fun j hj => ?_,
    frame_loadedRegs s x⟩
  · rw [State.getV_setAllV_loadedRegs, if_pos hj]
  · rw [State.getV_setAllV_loadedRegs, if_neg (Nat.not_le_of_lt hj)]

/-- Writing back the bytes that stand there leaves a canonical memory as it was. -/
theorem Memory.writeRun_eq_self {m : Memory} (hw : Memory.wf m) {bs : List Byte} {a : Nat} (hin : a + bs.length ≤ 4096)
    (h : ∀ (j : Nat) (hj : j < bs.length), bs[j] = Memory.read m (a + j)) : Memory.writeRun m a bs = m := by
  refine Memory.ext_read (Memory.wf_writeRun hw bs a hin) hw fun c => ?_
  by_cases hc : c < a ∨ a + bs.length ≤ c
  · exact Memory.read_writeRun_outside m bs a c hc
  · obtain ⟨j, rfl⟩ := Nat.exists_eq_add_of_le (show a ≤ c by omega)
    have hj : j < bs.length := by omega
    rw [Memory.read_writeRun_inside hw bs a hin j hj, h j hj]

/-- Storing the registers just loaded writes back the bytes they were loaded from. -/
theorem mem_stored_loadedRegs {x : Nibble} {s : State} (hw : Memory.wf s.mem) (hin : s.i.toNat + x.toNat ≤ 4095) :
    ((s.setAllV (s.loadedRegs x)).stored ((s.setAllV (s.loadedRegs x)).regsUpTo x)).mem = s.mem := by
  rw [State.stored_mem, State.setAllV_mem, State.setAllV_i]
  refine Memory.writeRun_eq_self hw (by rw [State.length_regsUpTo]; omega) fun j hj => ?_
  have hjx : j < x.toNat + 1 := by rwa [State.length_regsUpTo] at hj
  obtain ⟨r, rfl⟩ : ∃ r : Nibble, r.toNat = j := ⟨BitVec.ofNat 4 j, by have := x.isLt; rw [BitVec.toNat_ofNat]; omega⟩
  rw [State.getElem_regsUpTo, State.getV_setAllV_loadedRegs, if_pos (by omega)]

/-- Settles O52: neither instruction changes `I`, so each meets the run of bytes the other one left. -/
theorem storeAndLoadRegistersRoundTrip : Obligations.StoreAndLoadRegistersRoundTrip := by
  intro x s hw hin
  constructor
  · refine ⟨_, exec_storeRegisters_inRange hin, fun v => ?_⟩
    refine ⟨_, exec_loadRegisters_inRange ?_, fun j hj => ?_⟩
    · rwa [State.setAllV_i, State.stored_i]
    rw [State.getV_setAllV_loadedRegs, if_pos hj, State.setAllV_mem, State.setAllV_i, State.stored_i]
    exact State.read_storedRegs hw hin j hj
  · refine ⟨_, _, exec_loadRegisters_inRange hin, exec_storeRegisters_inRange ?_, mem_stored_loadedRegs hw hin⟩
    rwa [State.setAllV_i]

/-! ### Fetching what was stored (R78) -/

/-- A fetch at an address, as a number made of the two bytes there. -/
theorem toNat_fetchWord_setPc {t : State} {w : Word} {a : Nat} (hw : w.toNat = a) :
    (t.setPc w).fetchWord.toNat = (Memory.read t.mem a).toNat * 256 + (Memory.read t.mem (a + 1)).toNat := by
  have hpc : (t.setPc w).pc.toNat = a := hw
  rw [State.fetchWord_of_toNat_pc hpc, toNat_wordOfBytes, State.setPc_mem]

/-- An offset inside the RAM does not wrap. -/
theorem toNat_add_ofNat {w : Word} {j : Nat} (h : w.toNat + j ≤ 4095) :
    (w + BitVec.ofNat 16 j).toNat = w.toNat + j := by
  rw [BitVec.toNat_add, BitVec.toNat_ofNat]
  omega

/-- Settles O53: the two bytes at the fetch address are two neighbours of the stored run. -/
theorem storedRegistersAreFetched : Obligations.StoredRegistersAreFetched := by
  refine ⟨fun x j k s hw hin hk hkx => ⟨_, exec_storeRegisters_inRange hin, ?_⟩,
    fun x s hw hin => ⟨_, exec_storeBcd_inRange hin, ?_, ?_⟩⟩
  · rw [toNat_fetchWord_setPc (toNat_add_ofNat (j := j.toNat) (by omega)), Nat.add_assoc, ← hk]
    exact congrArg₂ (fun a b : Byte => a.toNat * 256 + b.toNat)
      (State.read_storedRegs hw hin j (by omega)) (State.read_storedRegs hw hin k hkx)
  · obtain ⟨hundreds, tens, -⟩ := digits_of_stored_bcd hw hin (s.getV x)
    rw [toNat_fetchWord_setPc rfl, hundreds, tens]
  · obtain ⟨-, tens, ones⟩ := digits_of_stored_bcd hw hin (s.getV x)
    have hpc : (s.i + 1).toNat = s.i.toNat + 1 := toNat_add_ofNat (j := 1) (by omega)
    rw [toNat_fetchWord_setPc hpc, tens, Nat.add_assoc, ones]

end Sys2Proof.Machine
end

section
/-! PROOFS. The invariant (spec/10_state.md R26, R28, R32; spec/20_memory.md R61, R64): every instruction keeps it
from an advanced `pc`, every step keeps it, and it holds at reset and at every launch. -/

namespace Sys2Proof.Machine

/-- A choice of two outcomes, each with the property under the condition that picks it. -/
theorem EndsIn.ite_of {P : State → Prop} {c : Prop} [Decidable c] {o p : Host.Outcome State Fault Refusal}
    (ho : c → EndsIn P o) (hp : ¬c → EndsIn P p) : EndsIn P (if c then o else p) := by
  split
  · exact ho (by assumption)
  · exact hp (by assumption)

/-! ### The invariant after one update -/

/-- A state with the RAM, `pc` and call stack of one that meets the invariant meets it. -/
theorem State.Inv.of_eq {s t : State} (h : s.Inv) (hmem : t.mem = s.mem) (hpc : t.pc = s.pc) (hsp : t.sp = s.sp)
    (hstk : t.stk = s.stk) : t.Inv := by
  refine ⟨hmem ▸ h.memory, hpc ▸ h.pcBound, fun j hj => ?_⟩
  rw [hsp] at hj
  rw [hstk]
  exact h.frames j hj

theorem State.Inv.setPc {s : State} (h : s.Inv) {w : Word} (hw : w.toNat ≤ 0x10FE) : (s.setPc w).Inv :=
  ⟨h.memory, hw, h.frames⟩

theorem State.Inv.setMem {s : State} (h : s.Inv) {m : Memory} (hm : Memory.wf m) : (s.setMem m).Inv :=
  ⟨hm, h.pcBound, h.frames⟩

/-- A store inside the RAM keeps the invariant. -/
theorem State.Inv.store {s : State} (h : s.Inv) {bs : List Byte} (hin : ¬s.outOfBounds bs.length = true) :
    (s.stored bs).Inv := by
  cases bs with
  | nil => exact h.setMem h.memory
  | cons b bs =>
    rw [State.outOfBounds_iff, List.length_cons] at hin
    refine h.setMem (Memory.wf_writeRun h.memory _ _ ?_)
    rw [State.dataAddr_eq, List.length_cons]
    omega

theorem State.Inv.pop {s : State} (h : s.Inv) : s.pop.Inv :=
  ⟨h.memory, h.pcBound, fun j hj => h.frames j (Nat.lt_of_lt_of_le hj (Nat.sub_le _ 1))⟩

theorem State.Inv.push {s : State} (h : s.Inv) {w : Word} (hw : ReturnAddress w) (hsp : s.sp.val ≠ 16) :
    (s.push w hsp).Inv := by
  refine ⟨h.memory, h.pcBound, fun j hj => ?_⟩
  rw [State.push_sp_val] at hj
  rw [State.push_stk, Vector.getElem_set]
  split
  · exact hw
  · exact h.frames j (by omega)

/-- The entry a Return reads is an active one. -/
theorem State.Inv.top {s : State} (h : s.Inv) (hsp : s.sp.val ≠ 0) : ReturnAddress s.top :=
  h.frames ⟨s.sp.val - 1, by have := s.sp.isLt; omega⟩ (Nat.sub_lt (Nat.pos_of_ne_zero hsp) Nat.one_pos)

theorem State.Inv.setV {s : State} (h : s.Inv) (x : Nibble) (b : Byte) : (s.setV x b).Inv := h.of_eq rfl rfl rfl rfl

theorem State.Inv.setAllV {s : State} (h : s.Inv) (v : Vector Byte 16) : (s.setAllV v).Inv := h.of_eq rfl rfl rfl rfl

theorem State.Inv.setFb {s : State} (h : s.Inv) (f : Framebuffer) : (s.setFb f).Inv := h.of_eq rfl rfl rfl rfl

theorem State.Inv.setStatus {s : State} (h : s.Inv) (x : Status) : (s.setStatus x).Inv := h.of_eq rfl rfl rfl rfl

theorem State.Inv.raise {s : State} (h : s.Inv) (c : Cause) (p n : Word) : (s.raise c p n).Inv := h.setStatus _

theorem State.Inv.loaderWrite {s : State} (h : s.Inv) (load : Option (Addr12 × Byte)) : (s.loaderWrite load).Inv := by
  cases load with
  | none => exact h
  | some ab => exact h.setMem (Memory.wf_write h.memory ab.1.isLt ab.2)

theorem State.Inv.poll {s : State} (h : s.Inv) (x : Nibble) : (s.poll x).Inv := by
  unfold State.poll
  split
  · exact h
  · exact (h.setV _ _).setStatus _

theorem inv_reset : State.reset.Inv :=
  ⟨Memory.wf_reset, by decide, fun _ hj => absurd hj (Nat.not_lt_zero _)⟩

theorem State.Inv.resetEvent {s : State} (h : s.Inv) : s.resetEvent.Inv :=
  ⟨h.memory, inv_reset.pcBound, fun _ hj => absurd hj (Nat.not_lt_zero _)⟩

/-! ### Every target of `pc` is at most 0x10FE -/

theorem ReturnAddress.le_pcBound {w : Word} (h : ReturnAddress w) : w.toNat ≤ 0x10FE := by
  obtain ⟨-, -, hle⟩ := h
  omega

theorem zextAddr_le_pcBound (nnn : Addr12) : (zextAddr nnn).toNat ≤ 0x10FE :=
  Nat.le_trans (toNat_zextAddr_le nnn) (by decide)

/-- The sum of a Jump-indexed is exact (decision D11). -/
theorem toNat_indexed_target (nnn : Addr12) (b : Byte) : (zextAddr nnn + zextByte b).toNat = nnn.toNat + b.toNat := by
  have := nnn.isLt
  have := b.isLt
  rw [BitVec.toNat_add, toNat_zextAddr, toNat_zextByte]
  omega

theorem indexed_target_le_pcBound (nnn : Addr12) (b : Byte) : (zextAddr nnn + zextByte b).toNat ≤ 0x10FE := by
  have := nnn.isLt
  have := b.isLt
  rw [toNat_indexed_target]
  omega

theorem toNat_add_two {w : Word} (h : w.toNat ≤ 4096) : (w + 2).toNat = w.toNat + 2 := by
  rw [BitVec.toNat_add, show (2 : Word).toNat = 2 from rfl]
  omega

theorem State.Inv.skipIf {s : State} (h : s.Inv) (hpc : ReturnAddress s.pc) (c : Bool) : (s.skipIf c).Inv := by
  obtain ⟨-, -, hle⟩ := hpc
  refine h.setPc ?_
  split
  · rw [toNat_add_two hle]
    omega
  · exact h.pcBound

/-! ### The invariant after an instruction and after a step -/

/-- Every instruction keeps the invariant, from the `pc` that the common advance leaves: an address to return to. -/
theorem exec_ends_in_inv (i : Instr) {s : State} (h : s.Inv) (hpc : ReturnAddress s.pc) :
    EndsIn State.Inv (exec i s) := by
  cases i with
  | ret =>
    exact .ite_of (fun _ => .next (h.raise _ _ _)) fun hsp => .next (h.pop.setPc (h.top hsp).le_pcBound)
  | jump nnn => exact .next (h.setPc (zextAddr_le_pcBound nnn))
  | call nnn =>
    exact .dite (fun _ => .next (h.raise _ _ _)) fun hsp => .next ((h.push hpc hsp).setPc (zextAddr_le_pcBound nnn))
  | jumpIndexed nnn => exact .next (h.setPc (indexed_target_le_pcBound nnn _))
  | skipEqImm | skipNeqImm | skipEqReg | skipNeqReg | skipIfPressed | skipIfNotPressed =>
    exact .next (h.skipIf hpc _)
  | storeBcd x => exact .ite_of (fun _ => .next (h.raise _ _ _)) fun hin => .next (h.store hin)
  | storeRegisters x =>
    refine .ite_of (fun _ => .next (h.raise _ _ _)) fun hin => .next (h.store ?_)
    rwa [State.length_regsUpTo]
  | draw x y n => exact .ite (.next (h.raise _ _ _)) (.next ((h.setFb _).setV _ _))
  | loadRegisters x => exact .ite (.next (h.raise _ _ _)) (.next (h.setAllV _))
  | loadKey x =>
    rw [exec_loadKey]
    exact .ite (.next (h.setStatus _)) (.next (h.setV _ _))
  | _ => exact .next (h.of_eq rfl rfl rfl rfl)

/-- The `pc` that the common advance leaves where the fetch checks pass is an address to return to (R32). -/
theorem returnAddress_advance_pc {s : State} (hf : s.fetchable = true) : ReturnAddress s.advance.pc := by
  have hadd := State.toNat_advance_pc hf
  obtain ⟨heven, hle⟩ := s.fetchable_iff.mp hf
  exact ⟨by omega, by omega, by omega⟩

theorem State.Inv.passBoundary {s : State} (h : s.Inv) : s.passBoundary.Inv := h.of_eq rfl rfl rfl rfl

theorem State.Inv.stepStart {s : State} (h : s.Inv) : s.stepStart.Inv := h.of_eq rfl rfl rfl rfl

theorem State.Inv.advance {s : State} (h : s.Inv) (hf : s.fetchable = true) : s.advance.Inv :=
  h.setPc (returnAddress_advance_pc hf).le_pcBound

theorem step_keeps_inv {s t : State} (h : s.Inv) (hstep : step s = .next t) : t.Inv := by
  obtain ⟨-, rfl⟩ | ⟨-, -, -, rfl⟩ | ⟨-, -, -, rfl⟩ | ⟨x, -, -, -, rfl⟩ | ⟨-, -, -, -, c, -, rfl⟩ |
    ⟨-, -, -, hf, -, rfl⟩ | ⟨i, hi, he⟩ := step_cases hstep
  · exact h.passBoundary.resetEvent.loaderWrite _
  · exact h.passBoundary.of_eq rfl rfl rfl rfl
  · exact h.passBoundary
  · exact h.stepStart.poll x
  · exact h.stepStart.raise _ _ _
  · exact (h.stepStart.advance hf).raise _ _ _
  · obtain ⟨-, -, -, hf, -⟩ := (s.issued_eq_some_iff i).mp hi
    have hf' : s.stepStart.fetchable = true := hf
    exact (exec_ends_in_inv i (h.stepStart.advance hf') (returnAddress_advance_pc hf')).of_eq_next he

/-- Settles O23: the cases of a step, and the invariant after each instruction. -/
theorem stepKeepsTheInvariant : Obligations.StepKeepsTheInvariant := fun _ _ => step_keeps_inv

/-! ### Reset and launch (spec/20_memory.md R73) -/

/-- What a launch is given, and the state it makes. -/
theorem State.launch_eq_some_iff (ram : Memory) (font image : List Byte) (s : State) :
    State.launch ram font image = some s ↔ (font.length = 80 ∧ image.length ≤ 3584) ∧
      State.reset.setMem (Memory.writeRun (Memory.writeRun ram 0 font) 0x200 image) = s := by
  rw [State.launch, Option.ite_none_right_eq_some, Option.some.injEq]
  rfl

/-- Settles O24: the font and the image are stores inside the RAM. -/
theorem resetAndLaunchMeetTheInvariant : Obligations.ResetAndLaunchMeetTheInvariant := by
  refine ⟨inv_reset, fun ram font image s hram hlaunch => ?_⟩
  obtain ⟨⟨hfont, himage⟩, rfl⟩ := (State.launch_eq_some_iff ram font image s).mp hlaunch
  have hwf := Memory.wf_writeRun hram font 0 (by omega)
  exact inv_reset.setMem (Memory.wf_writeRun hwf image 0x200 (by omega))

/-- Settles O22: a read in a run of writes gives the byte written, one outside it the byte before; the two runs are
apart. -/
theorem launchLoadsFontAndImage : Obligations.LaunchLoadsFontAndImage := by
  intro ram font image hram hfont
  refine ⟨fun hlong => ?_, fun himage => ?_⟩
  · rw [Option.eq_none_iff_forall_ne_some]
    intro s hs
    obtain ⟨⟨-, hle⟩, -⟩ := (State.launch_eq_some_iff ram font image s).mp hs
    omega
  · have hwf := Memory.wf_writeRun hram font 0 (by omega)
    refine ⟨_, (State.launch_eq_some_iff ram font image _).mpr ⟨⟨hfont, himage⟩, rfl⟩, fun a ha => ?_, fun k hk => ?_,
      fun a hlow houtside => ?_, rfl⟩
    · rw [State.setMem_mem, Memory.read_writeRun_outside _ _ _ _ (by omega)]
      simpa using Memory.read_writeRun_inside hram font 0 (by omega) a ha
    · exact Memory.read_writeRun_inside hwf image 0x200 (by omega) k hk
    · rw [State.setMem_mem, Memory.read_writeRun_outside _ _ _ _ houtside,
        Memory.read_writeRun_outside _ _ _ _ (by omega)]

end Sys2Proof.Machine
end

section
/-! PROOFS. Failures (spec/60_exceptions.md R251, R252, R262): what an instruction that fails leaves and which it can
be; what a step that fails leaves; what the fault outputs show; and that only a Faulted core stops. -/

namespace Sys2Proof.Machine

/-! ### An instruction that fails (R251) -/

/-- The instruction is a data access that reaches beyond address 4095 (spec/20_memory.md R65). -/
def AccessesBeyondRam (i : Instr) (s : State) : Prop :=
  (∃ x y k, i = .draw x y k ∧ 1 ≤ k.toNat ∧ s.i.toNat + (k.toNat - 1) > 4095) ∨
  (∃ x, i = .storeBcd x ∧ s.i.toNat + 2 > 4095) ∨
  (∃ x, i = .storeRegisters x ∧ s.i.toNat + x.toNat > 4095) ∨
  (∃ x, i = .loadRegisters x ∧ s.i.toNat + x.toNat > 4095)

/-- The failure of cause `c` with recorded value `n` is one that `i` can raise in `s`, and its condition holds. -/
def OwnFailure (i : Instr) (s : State) (c : Cause) (n : Word) : Prop :=
  (c = .stackOverflow ∧ (∃ nnn, i = .call nnn) ∧ s.sp.val = 16 ∧ n = 16) ∨
  (c = .stackUnderflow ∧ i = .ret ∧ s.sp.val = 0 ∧ n = 0) ∨
  (c = .boundsFailure ∧ n.toNat = max s.i.toNat 4096 ∧ AccessesBeyondRam i s)

/-- Where `t` is Faulted, it is `s` with one failure of `i` raised and nothing else done. -/
def FailsOnlyAsOwn (i : Instr) (s t : State) : Prop :=
  ∀ c p n, t.status = .faulted c p n → OwnFailure i s c n ∧ t = s.raiseExec c n

theorem FailsOnlyAsOwn.of_running {i : Instr} {s t : State} (h : t.status = .running) : FailsOnlyAsOwn i s t :=
  fun _ _ _ hf => Status.noConfusion (h.symm.trans hf)

theorem FailsOnlyAsOwn.of_raiseExec {i : Instr} {s : State} {c : Cause} {n : Word} (h : OwnFailure i s c n) :
    FailsOnlyAsOwn i s (s.raiseExec c n) := by
  intro c' p' n' hf
  cases hf
  exact ⟨h, rfl⟩

/-- A data access fails with the lowest out-of-range address recorded, or leaves `status` as it was. -/
theorem ends_failing_only_as_own_of_access {i : Instr} {s t : State} {c : Prop} [Decidable c] (hs : s.status = .running)
    (hc : c → AccessesBeyondRam i s) (ht : t.status = s.status) :
    EndsIn (FailsOnlyAsOwn i s) (if c then .next s.raiseBounds else .next t) :=
  .ite_of (fun h => .next (.of_raiseExec (.inr (.inr ⟨rfl, s.toNat_boundsInfo, hc h⟩)))) fun _ =>
    .next (.of_running (ht.trans hs))

theorem exec_ends_failing_only_as_own (i : Instr) {s : State} (hs : s.status = .running) :
    EndsIn (FailsOnlyAsOwn i s) (exec i s) := by
  cases i with
  | ret => exact .ite_of (fun h => .next (.of_raiseExec (.inr (.inl ⟨rfl, rfl, h, rfl⟩)))) fun _ => .next (.of_running hs)
  | call nnn =>
    exact .dite (fun h => .next (.of_raiseExec (.inl ⟨rfl, ⟨nnn, rfl⟩, h, rfl⟩))) fun _ => .next (.of_running hs)
  | draw x y n =>
    exact ends_failing_only_as_own_of_access hs (fun h => .inl ⟨x, y, n, rfl, (s.outOfBounds_iff n.toNat).mp h⟩) rfl
  | storeBcd x =>
    exact ends_failing_only_as_own_of_access hs (fun h => .inr (.inl ⟨x, rfl, ((s.outOfBounds_iff 3).mp h).2⟩)) rfl
  | storeRegisters x =>
    exact ends_failing_only_as_own_of_access hs
      (fun h => .inr (.inr (.inl ⟨x, rfl, ((s.outOfBounds_iff (x.toNat + 1)).mp h).2⟩))) rfl
  | loadRegisters x =>
    exact ends_failing_only_as_own_of_access hs
      (fun h => .inr (.inr (.inr ⟨x, rfl, ((s.outOfBounds_iff (x.toNat + 1)).mp h).2⟩))) rfl
  | loadKey x =>
    rw [exec_loadKey]
    exact .ite (.next fun _ _ _ hf => Status.noConfusion hf) (.next (.of_running hs))
  | _ => exact .next (.of_running hs)

/-- An instruction that leaves a running core Faulted has raised one of its own failures, and has done nothing else. -/
theorem failure_of_exec {i : Instr} {s t : State} {c : Cause} {p n : Word} (hs : s.status = .running)
    (h : exec i s = .next t) (ht : t.status = .faulted c p n) : OwnFailure i s c n ∧ t = s.raiseExec c n :=
  (exec_ends_failing_only_as_own i hs).of_eq_next h c p n ht

theorem faultPc_of_raiseExec_status {s : State} {c : Cause} {p n : Word} (h : (s.raiseExec c n).status = .faulted c p n) :
    p = s.pc - 2 := by
  cases h
  rfl

/-- Settles O13: the failing instruction has only raised its own failure, which records `pc - 2`. -/
theorem eachInstructionRaisesItsOwnCause : Obligations.EachInstructionRaisesItsOwnCause := by
  intro i s t c p n hs h ht
  obtain ⟨hown, rfl⟩ := failure_of_exec hs h ht
  exact ⟨faultPc_of_raiseExec_status ht, hown⟩

/-! ### A step that fails (R252) -/

theorem OwnFailure.not_fetch_cause {i : Instr} {s : State} {c : Cause} {n : Word} (h : OwnFailure i s c n) :
    ¬(c = .fetchBounds ∨ c = .pcMisaligned) := by
  obtain ⟨rfl, -⟩ | ⟨rfl, -⟩ | ⟨rfl, -⟩ := h <;> decide

theorem State.safe_resetEvent_loaderWrite (s : State) (load : Option (Addr12 × Byte)) :
    (s.resetEvent.loaderWrite load).Safe := by
  cases load <;> rfl

/-- The failures of a step: a fetch check, an illegal word, or an instruction's own, each raised on the state the step
starts from, with `pc` advanced after the fetch checks. -/
theorem failure_of_step {s t : State} {c : Cause} {p n : Word} (hs : s.status = .running) (h : step s = .next t)
    (ht : t.status = .faulted c p n) :
    ((c = .fetchBounds ∨ c = .pcMisaligned) ∧ t = s.stepStart.raise c s.pc n) ∨
    (¬(c = .fetchBounds ∨ c = .pcMisaligned) ∧ t = s.stepStart.advance.raise c s.pc n) := by
  obtain ⟨-, rfl⟩ | ⟨-, -, -, rfl⟩ | ⟨-, ⟨c', p', n', hf⟩, -, rfl⟩ | ⟨x, -, -, hx, rfl⟩ | ⟨-, -, -, -, c', hc, rfl⟩ |
    ⟨-, -, -, -, -, rfl⟩ | ⟨i, hi, he⟩ := step_cases h
  · exact absurd (State.safe_resetEvent_loaderWrite _ _) ((State.not_safe_iff _).mpr ⟨c, p, n, ht⟩)
  · exact Status.noConfusion (hs.symm.trans ht)
  · exact Status.noConfusion (hs.symm.trans hf)
  · exact Status.noConfusion (hs.symm.trans hx)
  · cases ht
    obtain ⟨rfl, -⟩ | ⟨rfl, -⟩ := hc
    · exact .inl ⟨.inr rfl, rfl⟩
    · exact .inl ⟨.inl rfl, rfl⟩
  · cases ht
    exact .inr ⟨by decide, rfl⟩
  · obtain ⟨hown, rfl⟩ := failure_of_exec (s := s.stepStart.advance) hs he ht
    refine .inr ⟨hown.not_fetch_cause, ?_⟩
    rw [State.raiseExec, s.stepStart.advance_pc, s.stepStart_pc, BitVec.add_sub_cancel]

/-! ### The outputs (spec/10_state.md R52) -/

theorem State.stRunning_iff (s : State) : s.stRunning = true ↔ s.status = .running := decide_eq_true_iff

theorem State.stAwaitKey_iff (s : State) : s.stAwaitKey = true ↔ ∃ x, s.status = .awaitKey x := by
  unfold State.stAwaitKey
  cases s.status <;> simp

theorem State.stFault_iff (s : State) : s.stFault = true ↔ ∃ c p n, s.status = .faulted c p n := by
  rw [← s.not_safe_iff, State.Safe, Bool.not_eq_false]

/-- The outputs of a Faulted core are its record. -/
theorem State.outputs_of_faulted {s : State} {c : Cause} {p n : Word} (h : s.status = .faulted c p n) :
    s.faultPc = p ∧ s.faultInfo = n ∧ s.faultCause = c.code := by
  simp [State.faultPc, State.faultInfo, State.faultCause, h]

theorem State.outputs_of_safe {s : State} (h : s.stFault = false) :
    s.faultCause = 0 ∧ s.faultPc = 0 ∧ s.faultInfo = 0 := by
  unfold State.stFault at h
  unfold State.faultCause State.faultPc State.faultInfo
  cases hs : s.status with
  | faulted c p n =>
    rw [hs] at h
    cases h
  | running | awaitKey => exact ⟨rfl, rfl, rfl⟩

/-- Settles O12: the two forms of a failing step, and the outputs by the status. -/
theorem failuresArePrecise : Obligations.FailuresArePrecise := by
  refine ⟨fun s t c p n hs h ht => ?_, fun s => ⟨s.stRunning_iff, s.stAwaitKey_iff, s.stFault_iff⟩,
    fun s c p n hs => ?_, fun s => State.outputs_of_safe⟩
  · have houtputs := State.outputs_of_faulted ht
    obtain ⟨hc, rfl⟩ | ⟨hc, rfl⟩ := failure_of_step hs h ht
    · cases ht
      exact ⟨rfl, (if_pos hc).symm, (frame_raise _ _ _ _).of_status rfl, houtputs⟩
    · cases ht
      exact ⟨rfl, (if_neg hc).symm, frame_advance_raise _ _ _ _, houtputs⟩
  · obtain ⟨hpc, hinfo, hcode⟩ := State.outputs_of_faulted hs
    refine ⟨hpc, hinfo, ?_, ?_, ?_, ?_, ?_, ?_⟩
    all_goals
      rintro rfl
      exact hcode

/-! ### What stops the machine (R262, R264) -/

theorem exec_answers_next (i : Instr) (s : State) : ∃ t, exec i s = .next t :=
  (exec_ends_in_footprint i s).imp fun _ h => h.1

theorem instructionStep_answers_next (s : State) : ∃ t, instructionStep s = .next t := by
  cases hf : s.fetchable with
  | false =>
    obtain ⟨c, -, he⟩ := instructionStep_of_not_fetchable hf
    exact ⟨_, he⟩
  | true =>
    cases hd : decode s.fetchWord with
    | decodeFailure => exact ⟨_, instructionStep_of_decodeFailure hf hd⟩
    | instr i =>
      rw [instructionStep_of_decode hf hd]
      exact exec_answers_next i _

/-- A Faulted core, by what the boundary brings: reset, no boundary left, or one to pass by. -/
theorem step_of_faulted {s : State} {c : Cause} {p n : Word} (hs : s.status = .faulted c p n)
    (hrst : s.sampled.rst = false) :
    step s = if s.inputs = [] then .fault (.halted c p n) else .next s.passBoundary := by
  simp [step_eq, hrst, hs]

/-- A step answers a next state, or the core is Faulted and no boundary is left to come. -/
theorem step_answers_next_or_halts (s : State) :
    (∃ t, step s = .next t) ∨
    ∃ c p n, s.inputs = [] ∧ s.status = .faulted c p n ∧ step s = .fault (.halted c p n) := by
  cases hrst : s.sampled.rst with
  | true => exact .inl ⟨_, step_of_reset hrst⟩
  | false =>
    cases hs : s.status with
    | faulted c p n =>
      by_cases hi : s.inputs = []
      · exact .inr ⟨c, p, n, hi, rfl, (step_of_faulted hs hrst).trans (if_pos hi)⟩
      · exact .inl ⟨_, (step_of_faulted hs hrst).trans (if_neg hi)⟩
    | awaitKey x => exact .inl ⟨_, by rw [step_eq, hrst, hs]; rfl⟩
    | running =>
      cases hrun : s.sampled.run with
      | false => exact .inl ⟨_, step_of_stopped hrst hrun (by rw [State.Safe, State.stFault, hs])⟩
      | true =>
        rw [step_of_stepEnabled ⟨hrst, hrun, hs⟩]
        exact .inl (instructionStep_answers_next _)

/-- Settles O14: what the boundary does to a Faulted core, and that every other step answers a next state. -/
theorem onlyAFaultedCoreStops : Obligations.OnlyAFaultedCoreStops := by
  refine ⟨fun s c p n hs => ⟨fun hi => ?_, fun hi hrst => ?_, fun hrst => ?_⟩, exec_answers_next, fun s r hr => ?_,
    fun s f hf => ?_⟩
  · obtain ⟨hrst, -⟩ := State.sampled_nil hi
    rw [step_of_faulted hs hrst, if_pos hi]
  · rw [step_of_faulted hs hrst, if_neg hi]
    rfl
  · exact ⟨_, step_of_reset hrst, State.safe_resetEvent_loaderWrite _ _, State.pc_resetEvent_loaderWrite _ _⟩
  · obtain ⟨t, ht⟩ | ⟨c, p, n, -, -, ht⟩ := step_answers_next_or_halts s
    · cases ht.symm.trans hr
    · cases ht.symm.trans hr
  · obtain ⟨t, ht⟩ | ⟨c, p, n, hi, hs, ht⟩ := step_answers_next_or_halts s
    · cases ht.symm.trans hf
    · cases ht.symm.trans hf
      exact ⟨hi, s.not_safe_iff.mpr ⟨c, p, n, hs⟩, c, p, n, rfl, hs⟩

end Sys2Proof.Machine
end

section
/-! PROOFS. What instructions leave alone: the frame of each (spec/00_scope.md R12), who writes `VF` (spec/10_state.md
R21, R23), and which instructions see the key snapshot and the random byte (R46, R47). -/

namespace Sys2Proof.Machine

/-- Settles O25 by `exec_ends_in_footprint`, the case split over the instructions. -/
theorem instructionsChangeOnlyTheirFootprint : Obligations.InstructionsChangeOnlyTheirFootprint :=
  fun _ _ _ => frame_of_exec

/-! ### Writers of `VF` -/

/-- An instruction with one named destination and no flag has `VF` in its footprint when `VF` is that destination. -/
theorem eq_flagReg_of_mem_singleton {x : Nibble} (h : (15 : Nibble) ∈ [x]) : x = 15 := (List.mem_singleton.mp h).symm

/-- The only run of registers from `V[0]` on that reaches `VF` is the whole file. -/
theorem eq_flagReg_of_mem_regsThrough {x : Nibble} (h : (15 : Nibble) ∈ regsThrough x) : x = 15 := by
  have hle : 15 ≤ x.toNat := mem_regsThrough.mp h
  exact BitVec.eq_of_toNat_eq (Nat.le_antisymm (Nat.le_of_lt_succ x.isLt) hle)

/-- The instruction writes `VF` as a flag or names it as its destination. -/
def WritesFlagReg (i : Instr) : Prop :=
  (∃ x y, i = .addReg x y ∨ i = .subReg x y ∨ i = .shiftRight x y ∨ i = .subNegated x y ∨ i = .shiftLeft x y) ∨
  (∃ x y n, i = .draw x y n) ∨
  (∃ kk, i = .loadImm 15 kk ∨ i = .addImm 15 kk ∨ i = .random 15 kk) ∨
  (∃ y, i = .loadReg 15 y ∨ i = .orReg 15 y ∨ i = .andReg 15 y ∨ i = .xorReg 15 y) ∨
  i = .loadDelay 15 ∨ i = .loadKey 15 ∨ i = .loadRegisters 15

theorem writesFlagReg_of_mem_footprint {i : Instr} {s : State} (h : 15 ∈ (footprint s i).regs) : WritesFlagReg i := by
  cases i with
  | addReg | subReg | shiftRight | subNegated | shiftLeft | draw => simp [WritesFlagReg]
  | loadImm | addImm | random | loadReg | orReg | andReg | xorReg | loadDelay | loadKey =>
    obtain rfl := eq_flagReg_of_mem_singleton h
    simp [WritesFlagReg]
  | loadRegisters =>
    obtain rfl := eq_flagReg_of_mem_regsThrough h
    simp [WritesFlagReg]
  | _ => exact absurd h List.not_mem_nil

/-- Settles O26: a register outside the footprint does not change. -/
theorem flagRegisterHasSixFlagWriters : Obligations.FlagRegisterHasSixFlagWriters := by
  intro i s t h hchanged
  by_contra hn
  exact hchanged ((frame_of_exec h).regs 15 fun hmem => hn (writesFlagReg_of_mem_footprint hmem))

/-! ### The inputs an instruction sees -/

/-- Two runs of one instruction from `s` and from `f s` that end in `t` and `f t`. -/
theorem BothEndIn.exists_commuting {f : State → State} {o o' : Host.Outcome State Fault Refusal}
    (h : BothEndIn (fun t u => u = f t) o o') : ∃ t, o = .next t ∧ o' = .next (f t) := by
  obtain ⟨t, _, ho, ho', rfl⟩ := h
  exact ⟨t, ho, ho'⟩

/-- Every instruction but the three key instructions does the same whatever key snapshot is latched. -/
theorem exec_ignores_keys {i : Instr} (hi : ∀ x, i ≠ .skipIfPressed x ∧ i ≠ .skipIfNotPressed x ∧ i ≠ .loadKey x)
    (s : State) (k : BitVec 16) :
    BothEndIn (fun t u => u = { t with keys := k }) (exec i s) (exec i { s with keys := k }) := by
  cases i with
  | skipIfPressed x => exact absurd rfl (hi x).1
  | skipIfNotPressed x => exact absurd rfl (hi x).2.1
  | loadKey x => exact absurd rfl (hi x).2.2
  | ret | draw | storeBcd | storeRegisters => exact .ite (fun _ => .next rfl) (fun _ => .next rfl)
  | loadRegisters x => exact exec_loadRegisters_both x rfl rfl rfl fun _ => rfl
  | call => exact .dite (fun _ => .next rfl) (fun _ => .next rfl)
  | _ => exact .next rfl

/-- Every instruction but Random does the same whatever random byte is latched. -/
theorem exec_ignores_rnd {i : Instr} (hi : ∀ x kk, i ≠ .random x kk) (s : State) (b : Byte) :
    BothEndIn (fun t u => u = { t with rnd := b }) (exec i s) (exec i { s with rnd := b }) := by
  cases i with
  | random x kk => exact absurd rfl (hi x kk)
  | ret | draw | storeBcd | storeRegisters => exact .ite (fun _ => .next rfl) (fun _ => .next rfl)
  | loadRegisters x => exact exec_loadRegisters_both x rfl rfl rfl fun _ => rfl
  | loadKey =>
    rw [exec_loadKey, exec_loadKey]
    exact .ite (fun _ => .next rfl) (fun _ => .next rfl)
  | call => exact .dite (fun _ => .next rfl) (fun _ => .next rfl)
  | _ => exact .next rfl

theorem State.poll_ignores_rnd (s : State) (x : Nibble) (b : Byte) :
    State.poll { s with rnd := b } x = { s.poll x with rnd := b } := by
  unfold State.poll
  split <;> rfl

/-- Settles O30: each instruction but those named is run with two values of the input side by side. -/
theorem inputsReachOnlyTheirInstructions : Obligations.InputsReachOnlyTheirInstructions :=
  ⟨fun _ s k hi => (exec_ignores_keys hi s k).exists_commuting, fun _ s b hi => (exec_ignores_rnd hi s b).exists_commuting,
    State.poll_ignores_rnd⟩

end Sys2Proof.Machine
end

section
/-! PROOFS. The boundary (spec/40_step_cycle.md): the decoded instruction and the fetch checks of a step, ticks, the
stopped host, reset and the loader port. -/

namespace Sys2Proof.Machine

/-- Settles O7: the step is `exec` of the decoded instruction, and what the boundary has done before it is known. -/
theorem stepRunsTheDecodedInstruction : Obligations.StepRunsTheDecodedInstruction := fun s _ ⟨hs, hf⟩ hd =>
  ⟨step_of_decode hs hf hd, s.stepStart_eq, toNat_countDown s.dt _, toNat_countDown s.st _⟩

/-- Settles O10: each failing check raises on the state the step starts from. -/
theorem fetchChecksRaise : Obligations.FetchChecksRaise := fun s hs =>
  ⟨fun hodd => ⟨_, step_of_pcMisaligned hs hodd, rfl, frame_raise s.stepStart _ _ _⟩,
    fun heven hhigh => ⟨_, step_of_fetchBounds hs heven hhigh, rfl, frame_raise s.stepStart _ _ _⟩⟩

/-! ### Ticks (R130, R133) -/

theorem countDown_zero (t : Byte) : countDown t 0 = t :=
  BitVec.eq_of_toNat_eq ((toNat_countDown t 0).trans (Nat.sub_zero _))

theorem countDown_countDown (t : Byte) (n m : Nat) : countDown (countDown t n) m = countDown t (n + m) := by
  apply BitVec.eq_of_toNat_eq
  rw [toNat_countDown, toNat_countDown, toNat_countDown, Nat.sub_sub]

theorem State.ticks_zero (s : State) : s.ticks 0 = s := by
  rw [State.ticks_eq, countDown_zero, countDown_zero]

/-- One more tick. -/
theorem State.ticks_succ (s : State) (n : Nat) : s.ticks (n + 1) = (s.ticks n).tick := by
  rw [State.tick_eq_ticks_one, State.ticks_eq, State.ticks_eq, State.ticks_dt, State.ticks_st, countDown_countDown,
    countDown_countDown]
  rfl

theorem State.ticks_eq_iterate_tick (s : State) (n : Nat) : s.ticks n = State.tick^[n] s := by
  induction n with
  | zero => exact s.ticks_zero
  | succ n ih => rw [State.ticks_succ, ih, Function.iterate_succ_apply']

/-- Settles O16: one more tick of the closed form is the tick event, and a timer after `n` ticks is known. -/
theorem ticksAreTheTickEventRepeated : Obligations.TicksAreTheTickEventRepeated := fun s n =>
  ⟨s.ticks_eq_iterate_tick n, toNat_countDown s.dt n, toNat_countDown s.st n⟩

/-- Settles O18: the boundary applies its ticks and does nothing else. -/
theorem stoppedCoreOnlyTicks : Obligations.StoppedCoreOnlyTicks := fun s hrst hrun hs =>
  ⟨_, step_of_stopped hrst hrun hs, frame_ticks s.passBoundary _, toNat_countDown s.dt _, toNat_countDown s.st _⟩

/-! ### Who may raise a timer (R133) -/

theorem eq_setDelay_of_footprint_dt {i : Instr} {s : State} (h : (footprint s i).dt = true) : ∃ x, i = .setDelay x := by
  cases i with
  | setDelay x => exact ⟨x, rfl⟩
  | _ => exact absurd h Bool.false_ne_true

theorem eq_setSound_of_footprint_st {i : Instr} {s : State} (h : (footprint s i).st = true) : ∃ x, i = .setSound x := by
  cases i with
  | setSound x => exact ⟨x, rfl⟩
  | _ => exact absurd h Bool.false_ne_true

@[simp] theorem State.poll_dt (s : State) (x : Nibble) : (s.poll x).dt = s.dt := by
  unfold State.poll
  split <;> rfl

@[simp] theorem State.poll_st (s : State) (x : Nibble) : (s.poll x).st = s.st := by
  unfold State.poll
  split <;> rfl

@[simp] theorem State.loaderWrite_dt (s : State) (load : Option (Addr12 × Byte)) : (s.loaderWrite load).dt = s.dt := by
  cases load <;> rfl

@[simp] theorem State.loaderWrite_st (s : State) (load : Option (Addr12 × Byte)) : (s.loaderWrite load).st = s.st := by
  cases load <;> rfl

/-- Neither timer of `t` is above that of `s`. -/
def TimersAtMost (s t : State) : Prop := t.dt.toNat ≤ s.dt.toNat ∧ t.st.toNat ≤ s.st.toNat

theorem TimersAtMost.of_eq {s t u : State} (h : TimersAtMost s t) (hdt : u.dt = t.dt) (hst : u.st = t.st) :
    TimersAtMost s u := by
  rwa [TimersAtMost, hdt, hst]

theorem timersAtMost_ticks (s : State) (n : Nat) : TimersAtMost s (s.ticks n) := by
  constructor
  · exact (toNat_countDown s.dt n).trans_le (Nat.sub_le _ _)
  · exact (toNat_countDown s.st n).trans_le (Nat.sub_le _ _)

theorem timersAtMost_stepStart (s : State) : TimersAtMost s s.stepStart := timersAtMost_ticks s _

/-- A step that executes no instruction resets the timers, keeps them or lets them fall. -/
theorem timersAtMost_or_executes_of_step {s t : State} (h : step s = .next t) :
    TimersAtMost s t ∨ ∃ i, s.issued = some i ∧ exec i s.stepStart.advance = .next t := by
  obtain ⟨-, rfl⟩ | ⟨-, -, -, rfl⟩ | ⟨-, -, -, rfl⟩ | ⟨x, -, -, -, rfl⟩ | ⟨-, -, -, -, c, -, rfl⟩ |
    ⟨-, -, -, -, -, rfl⟩ | he := step_cases h
  · exact .inl ⟨by simp, by simp⟩
  · exact .inl (timersAtMost_ticks s _)
  · exact .inl ⟨Nat.le_refl _, Nat.le_refl _⟩
  · exact .inl ((timersAtMost_stepStart s).of_eq (State.poll_dt _ x) (State.poll_st _ x))
  · exact .inl ((timersAtMost_stepStart s).of_eq rfl rfl)
  · exact .inl ((timersAtMost_stepStart s).of_eq rfl rfl)
  · exact .inr he

/-- Settles O17: an instruction without the timer in its footprint leaves it at most where the ticks did. -/
theorem timersOnlyFallUnlessSet : Obligations.TimersOnlyFallUnlessSet := by
  intro s t h
  obtain ⟨hdt, hst⟩ | ⟨i, hi, he⟩ := timersAtMost_or_executes_of_step h
  · exact ⟨fun hlt => absurd hdt (Nat.not_le_of_lt hlt), fun hlt => absurd hst (Nat.not_le_of_lt hlt)⟩
  · have hframe := frame_of_exec he
    obtain ⟨hdt, hst⟩ := timersAtMost_stepStart s
    simp only [hi, Option.some.injEq]
    refine ⟨fun hlt => eq_setDelay_of_footprint_dt (s := s.stepStart.advance) ?_,
      fun hlt => eq_setSound_of_footprint_st (s := s.stepStart.advance) ?_⟩
    · by_contra hn
      rw [hframe.dt (Bool.eq_false_of_not_eq_true hn)] at hlt
      exact Nat.not_le_of_lt hlt hdt
    · by_contra hn
      rw [hframe.st (Bool.eq_false_of_not_eq_true hn)] at hlt
      exact Nat.not_le_of_lt hlt hst

/-! ### Reset and the loader port (spec/70_reset_and_hazards.md R290, R297) -/

/-- The loader port changes the RAM only. -/
theorem State.loaderWrite_eq_setMem (s : State) (load : Option (Addr12 × Byte)) :
    s.loaderWrite load = s.setMem (s.loaderWrite load).mem := by
  cases load <;> rfl

/-- The loader port changes no byte but the one it addresses, in every memory. -/
theorem State.read_loaderWrite_of_ne (s : State) {load : Option (Addr12 × Byte)} {c : Nat}
    (hc : ∀ a b, load = some (a, b) → c ≠ a.toNat) :
    Memory.read (s.loaderWrite load).mem c = Memory.read s.mem c := by
  cases load with
  | none => rfl
  | some ab => exact Memory.read_write_of_ne s.mem ab.2 (hc ab.1 ab.2 rfl)

theorem State.getV_resetEvent (s : State) (r : Nibble) : s.resetEvent.getV r = 0 := by
  rw [State.getV_eq]
  exact Vector.getElem_replicate _

/-- Settles O20: the reset event and the loader's write, of which only the RAM is the latter's. -/
theorem resetEventSetsEveryRegister : Obligations.ResetEventSetsEveryRegister := by
  intro s hrst
  refine ⟨_, step_of_reset hrst, ?_⟩
  rw [State.loaderWrite_eq_setMem]
  refine ⟨s.passBoundary.getV_resetEvent, rfl, rfl, rfl, rfl, rfl, rfl, cell_clear, rfl, rfl, fun hload => ?_,
    fun c hc => ?_⟩
  · rw [hload]
    rfl
  · exact s.passBoundary.resetEvent.read_loaderWrite_of_ne hc

/-- Outside reset a step does not depend on what the loader port presents. -/
theorem step_ignores_load_outside_reset (s : State) {inp : Input} (rest : List Input) (l m : Option (Addr12 × Byte))
    (hrst : inp.rst = false) :
    step { s with inputs := { inp with load := l } :: rest } =
      step { s with inputs := { inp with load := m } :: rest } := by
  simp only [step_eq, State.sampled, hrst, reduceCtorEq]
  rfl

/-- Settles O21: a write to the canonical RAM in reset; outside reset the step takes nothing from the port. -/
theorem loaderWritesOnlyInReset : Obligations.LoaderWritesOnlyInReset := by
  refine fun s inp rest a b => ⟨fun hw hinputs hrst hload => ?_, step_ignores_load_outside_reset s rest _ _⟩
  have hsampled : s.sampled = inp := s.sampled_cons inp rest hinputs
  refine ⟨_, step_of_reset (hsampled ▸ hrst), ?_⟩
  rw [hsampled, hload]
  exact ⟨Memory.read_write_self hw a.toNat b, fun c hc => Memory.read_write_of_ne s.mem b hc⟩

end Sys2Proof.Machine
end

section
/-! PROOFS. Calls, Jump-indexed and the skips (spec/41_control_flow.md R143 to R149; spec/45_input_timers.md R231 to
R233). -/

namespace Sys2Proof.Machine

/-! ### Call (R143) -/

/-- The state after a Call with room on the stack. -/
def State.called (s : State) (nnn : Addr12) (h : s.sp.val ≠ 16) : State := (s.push s.pc h).setPc (zextAddr nnn)

theorem exec_call_of_full (nnn : Addr12) {s : State} (h : s.sp.val = 16) :
    exec (.call nnn) s = .next (s.raiseExec .stackOverflow 16) := dif_pos h

theorem exec_call_of_room (nnn : Addr12) {s : State} (h : s.sp.val ≠ 16) :
    exec (.call nnn) s = .next (s.called nnn h) := dif_neg h

@[simp] theorem State.called_sp_val (s : State) (nnn : Addr12) (h : s.sp.val ≠ 16) :
    (s.called nnn h).sp.val = s.sp.val + 1 := rfl

/-- The stack after a Call: the return address on top, the other entries as they were. -/
theorem State.called_stk (s : State) (nnn : Addr12) (h : s.sp.val ≠ 16) (j : Fin 16) :
    (s.called nnn h).stk[j.val] = if j.val = s.sp.val then s.pc else s.stk[j.val] :=
  have hsp : s.sp.val < 16 := by omega
  (Vector.getElem_set hsp j.isLt).trans (if_congr eq_comm rfl rfl)

/-- Settles O33: a Call on a full stack and one with room. -/
theorem callPushesTheReturnAddress : Obligations.CallPushesTheReturnAddress := fun nnn s =>
  ⟨decode_encode (.call nnn), fun hfull => ⟨_, exec_call_of_full nnn hfull, rfl, frame_raiseExec s _ _⟩,
    fun hroom => ⟨_, exec_call_of_room nnn hroom, toNat_zextAddr nnn, rfl, s.called_stk nnn hroom, frame_push s _ _ hroom⟩⟩

/-- Settles O34: Return reads the entry that Call wrote, and erases none. -/
theorem returnResumesAfterItsCall : Obligations.ReturnResumesAfterItsCall := by
  intro nnn p s hroom
  have hlt : s.sp.val < 16 := by omega
  refine ⟨_, _, exec_call_of_room nnn hroom,
    exec_ret_of_frame (s := (s.called nnn hroom).setPc p) (j := ⟨s.sp.val, hlt⟩) rfl, ?_, rfl, fun j hj => ?_⟩
  · exact (s.called_stk nnn hroom ⟨s.sp.val, hlt⟩).trans (if_pos rfl)
  · exact (s.called_stk nnn hroom j).trans (if_neg (Nat.ne_of_lt hj))

theorem execAll_cons_of_exec {i : Instr} {is : List Instr} {s t : State} (h : exec i s = .next t) :
    execAll (i :: is) s = execAll is t := by
  rw [execAll, h]

/-- Calls nest while there is room: `k` of them leave `k` more frames and the status as it was. -/
theorem execAll_calls (nnn : Addr12) (k : Nat) (is : List Instr) (s : State) (hroom : s.sp.val + k ≤ 16) :
    ∃ t, execAll (List.replicate k (.call nnn) ++ is) s = execAll is t ∧ t.sp.val = s.sp.val + k ∧
      t.status = s.status := by
  induction k generalizing s with
  | zero => exact ⟨s, rfl, rfl, rfl⟩
  | succ k ih =>
    have hne : s.sp.val ≠ 16 := by omega
    obtain ⟨t, ht, hsp, hstatus⟩ := ih (s.called nnn hne) (by rw [State.called_sp_val]; omega)
    rw [List.replicate_succ, List.cons_append, execAll_cons_of_exec (exec_call_of_room nnn hne)]
    refine ⟨t, ht, ?_, hstatus⟩
    rw [hsp, State.called_sp_val]
    omega

/-- Settles O35: the 17th Call follows 16 that have filled the stack. -/
theorem sixteenCallsNestAndNoMore : Obligations.SixteenCallsNestAndNoMore := by
  refine fun nnn s hempty => ⟨fun k hk => ?_, ?_⟩
  · obtain ⟨t, ht, hsp, hstatus⟩ := execAll_calls nnn k [] s (by omega)
    rw [List.append_nil] at ht
    exact ⟨t, ht, by omega, hstatus⟩
  · obtain ⟨t, ht, hsp, -⟩ := execAll_calls nnn 16 [.call nnn] s (by omega)
    have hfull : t.sp.val = 16 := by omega
    refine ⟨t.raiseExec .stackOverflow 16, t.pc - 2, ?_, hfull, rfl⟩
    calc execAll (List.replicate 17 (.call nnn)) s = execAll [.call nnn] t := ht
      _ = .next (t.raiseExec .stackOverflow 16) := execAll_cons_of_exec (exec_call_of_full nnn hfull)

/-! ### Jump-indexed (R144) -/

/-- Settles O36: the sum of twelve and eight bits fits in sixteen. -/
theorem jumpIndexedAddsV0 : Obligations.JumpIndexedAddsV0 := fun nnn s =>
  ⟨decode_encode (.jumpIndexed nnn), _, exec_jumpIndexed nnn s, toNat_indexed_target nnn _, indexed_target_le_pcBound nnn _,
    frame_setPc s _⟩

/-! ### The six skips (R145 to R149, R231, R232) -/

/-- The condition of a skip, for the six of them. -/
def skipCondition (s : State) : Instr → Option Bool
  | .skipEqImm x kk => some (s.getV x == kk)
  | .skipNeqImm x kk => some (s.getV x != kk)
  | .skipEqReg x y => some (s.getV x == s.getV y)
  | .skipNeqReg x y => some (s.getV x != s.getV y)
  | .skipIfPressed x => some (keyPressed s.keys (s.getV x))
  | .skipIfNotPressed x => some (!keyPressed s.keys (s.getV x))
  | _ => none

theorem exec_of_skipCondition {i : Instr} {s : State} {c : Bool} (h : skipCondition s i = some c) :
    exec i s = .next (s.skipIf c) := by
  cases i with
  | skipEqImm | skipNeqImm | skipEqReg | skipNeqReg | skipIfPressed | skipIfNotPressed =>
    cases h
    rfl
  | _ => cases h

theorem State.skipIf_pc (s : State) (c : Bool) : (s.skipIf c).pc = if c then s.pc + 2 else s.pc := rfl

/-- A skip, by its condition as a proposition. -/
theorem exists_skip {i : Instr} {s : State} {c : Bool} {P : Prop} [Decidable P] (h : skipCondition s i = some c)
    (hc : c = true ↔ P) :
    ∃ t, exec i s = .next t ∧ Frame { pc := true } s t ∧ t.pc = if P then s.pc + 2 else s.pc :=
  ⟨_, exec_of_skipCondition h, frame_skipIf s c, (s.skipIf_pc c).trans (if_congr hc rfl rfl)⟩

theorem exists_skip_unless {i : Instr} {s : State} {c : Bool} {P : Prop} [Decidable P] (h : skipCondition s i = some c)
    (hc : c = true ↔ ¬P) :
    ∃ t, exec i s = .next t ∧ Frame { pc := true } s t ∧ t.pc = if P then s.pc else s.pc + 2 := by
  obtain ⟨t, ht, hframe, hpc⟩ := exists_skip h hc
  exact ⟨t, ht, hframe, hpc.trans (ite_not P _ _)⟩

/-- Settles O37: each skip by its condition, two of them by its negation. -/
theorem registerSkipsCompare : Obligations.RegisterSkipsCompare := fun x y kk _ =>
  ⟨⟨decode_encode (.skipEqImm x kk), exists_skip rfl beq_iff_eq⟩,
    ⟨decode_encode (.skipNeqImm x kk), exists_skip_unless rfl bne_iff_ne⟩,
    ⟨decode_encode (.skipEqReg x y), exists_skip rfl beq_iff_eq⟩,
    ⟨decode_encode (.skipNeqReg x y), exists_skip_unless rfl bne_iff_ne⟩⟩

theorem keyPressed_of_eq {keys : BitVec 16} {b : Byte} {k : Fin 16} (h : k.val = b.toNat) :
    keyPressed keys b = keys[k.val] := by
  rw [keyPressed, ← h, BitVec.getLsbD_eq_getElem]

theorem keyPressed_of_gt {keys : BitVec 16} {b : Byte} (h : b.toNat > 15) : keyPressed keys b = false :=
  BitVec.getLsbD_of_ge keys b.toNat h

/-- Settles O57: the snapshot's bit at the whole byte, which is 0 above 15. -/
theorem keySkipsTestTheWholeByte : Obligations.KeySkipsTestTheWholeByte := by
  refine fun x s => ⟨⟨decode_encode (.skipIfPressed x), _, exec_of_skipCondition rfl, frame_skipIf s _, fun k hk => ?_,
    fun h => ?_⟩, decode_encode (.skipIfNotPressed x), _, exec_of_skipCondition rfl, frame_skipIf s _, fun k hk => ?_,
    fun h => ?_⟩
  · rw [State.skipIf_pc, keyPressed_of_eq hk]
  · rw [State.skipIf_pc, keyPressed_of_gt h]
    rfl
  · rw [State.skipIf_pc, keyPressed_of_eq hk]
    cases s.keys[k.val] <;> rfl
  · rw [State.skipIf_pc, keyPressed_of_gt h]
    rfl

/-- A taken skip, seen from its step. -/
theorem step_of_taken_skip {s : State} {i : Instr} (hi : s.issued = some i)
    (htaken : skipCondition s.stepStart.advance i = some true) :
    ∃ t, step s = .next t ∧ t.pc.toNat = s.pc.toNat + 4 ∧ t.pc.toNat ≤ 4098 ∧ t.status = .running ∧
      Frame { pc := true } s.stepStart t := by
  obtain ⟨-, -, hstatus, hf, -⟩ := (s.issued_eq_some_iff i).mp hi
  obtain ⟨-, hle⟩ := s.fetchable_iff.mp hf
  have hadvance : s.stepStart.advance.pc.toNat = s.pc.toNat + 2 := State.toNat_advance_pc (s := s.stepStart) hf
  have hpc : (s.stepStart.advance.skipIf true).pc.toNat = s.pc.toNat + 4 :=
    (toNat_add_two (by omega)).trans (by omega)
  exact ⟨_, (step_of_issued hi).trans (exec_of_skipCondition htaken), hpc, by omega, hstatus,
    (frame_advance _).trans (frame_skipIf _ true)⟩

/-- Settles O38: each of the six has its condition on the registers of the state before the step, which neither the
ticks nor the advance change, and on the snapshot of its boundary. -/
theorem takenSkipResumesFourOn : Obligations.TakenSkipResumesFourOn := by
  rintro s x y kk (⟨hi, hc⟩ | ⟨hi, hc⟩ | ⟨hi, hc⟩ | ⟨hi, hc⟩ | ⟨hi, k, hk, hc⟩ | ⟨hi, hc⟩)
  all_goals refine step_of_taken_skip hi (congrArg some ?_)
  · exact beq_iff_eq.mpr hc
  · exact bne_iff_ne.mpr hc
  · exact beq_iff_eq.mpr hc
  · exact bne_iff_ne.mpr hc
  · exact (keyPressed_of_eq hk).trans hc
  · have hnot : keyPressed s.sampled.keys (s.getV x) = false := by
      by_cases hx : (s.getV x).toNat < 16
      · exact (keyPressed_of_eq (k := ⟨_, hx⟩) rfl).trans (hc ⟨_, hx⟩ rfl)
      · exact keyPressed_of_gt (Nat.le_of_not_lt hx)
    exact congrArg not hnot

end Sys2Proof.Machine
end

section
/-! PROOFS. Arithmetic, shifts and the address register (spec/42_load_arith_logic.md R160 to R173;
spec/43_index_memory.md R192, R193): the value of the destination, the flag unless `VF` is the destination, the frame.
-/

namespace Sys2Proof.Machine

/-! ### One register written -/

/-- An instruction that writes only `V[x]`, by what is to be known of the value. -/
theorem exists_of_exec_setV {i : Instr} {s : State} {x : Nibble} {v : Byte} {P : Byte → Prop}
    (he : exec i s = .next (s.setV x v)) (hv : P v) :
    ∃ t, exec i s = .next t ∧ P (t.getV x) ∧ Frame { regs := [x] } s t := by
  refine ⟨_, he, ?_, frame_setV s x v⟩
  rwa [s.getV_setV_self]

/-- Settles O40: each of the three writes only `V[x]`. -/
theorem addImmLoadRegRandomWriteOneRegister : Obligations.AddImmLoadRegRandomWriteOneRegister := fun x y kk s =>
  ⟨⟨decode_encode (.addImm x kk),
      exists_of_exec_setV (P := fun v => v.toNat = ((s.getV x).toNat + kk.toNat) % 256) rfl (toNat_sumByte _ kk)⟩,
    ⟨decode_encode (.loadReg x y), exists_of_exec_setV (P := fun v => v = s.getV y) rfl rfl⟩,
    ⟨decode_encode (.random x kk),
      exists_of_exec_setV (P := fun v => ∀ b, v.getLsbD b = (s.rnd.getLsbD b && kk.getLsbD b)) rfl
        fun _ => BitVec.getLsbD_and⟩⟩

/-! ### The flag and a result (R173) -/

/-- `VF` after a flag-writing instruction whose destination is another register. -/
theorem State.getV_flagThenResult_flag {x : Nibble} (hx : x ≠ 15) (s : State) (c : Bool) (b : Byte) :
    (s.flagThenResult x c b).getV 15 = flagByte c := by
  rw [State.getV_flagThenResult, if_neg hx.symm, if_pos rfl]

/-- An instruction that writes the flag and then `V[x]`, by what is to be known of the flag and of the result. -/
theorem exists_of_exec_flagThenResult {i : Instr} {s : State} {x : Nibble} {c : Bool} {v : Byte} {P Q : Byte → Prop}
    (he : exec i s = .next (s.flagThenResult x c v)) (hv : P v) (hc : Q (flagByte c)) :
    ∃ t, exec i s = .next t ∧ P (t.getV x) ∧ (x ≠ 15 → Q (t.getV 15)) ∧ Frame { regs := [x, 15] } s t := by
  refine ⟨_, he, ?_, fun hx => ?_, frame_flagThenResult s x c v⟩
  · rwa [s.getV_flagThenResult_self]
  · rwa [State.getV_flagThenResult_flag hx]

theorem flagByte_decide (p : Prop) [Decidable p] : flagByte (decide p) = if p then 1 else 0 := by
  simp only [flagByte, decide_eq_true_eq]

/-- Settles O42: the carry is written before the sum. -/
theorem addRegSumsWithCarry : Obligations.AddRegSumsWithCarry := fun x y s =>
  ⟨decode_encode (.addReg x y),
    exists_of_exec_flagThenResult (P := fun v => v.toNat = ((s.getV x).toNat + (s.getV y).toNat) % 256)
      (Q := fun v => v = if (s.getV x).toNat + (s.getV y).toNat > 255 then 1 else 0) rfl (toNat_sumByte _ _)
      (flagByte_decide _)⟩

/-- Settles O43: the no-borrow flag is written before the difference, the operands swapped for Sub-negated. -/
theorem subtractionsWrapWithStrictFlag : Obligations.SubtractionsWrapWithStrictFlag := fun x y s =>
  ⟨⟨decode_encode (.subReg x y),
      exists_of_exec_flagThenResult (P := fun v => v.toNat = ((s.getV x).toNat + 256 - (s.getV y).toNat) % 256)
        (Q := fun v => v = if (s.getV x).toNat > (s.getV y).toNat then 1 else 0) rfl (toNat_differenceByte _ _)
        (flagByte_decide _)⟩,
    ⟨decode_encode (.subNegated x y),
      exists_of_exec_flagThenResult (P := fun v => v.toNat = ((s.getV y).toNat + 256 - (s.getV x).toNat) % 256)
        (Q := fun v => v = if (s.getV y).toNat > (s.getV x).toNat then 1 else 0) rfl (toNat_differenceByte _ _)
        (flagByte_decide _)⟩⟩

theorem toNat_flag_shiftedOutRight (b : Byte) : (flagByte (shiftedOutRight b)).toNat = b.toNat % 2 := by
  rw [toNat_flagByte, shiftedOutRight_eq]
  simp only [decide_eq_true_eq]
  split <;> omega

theorem toNat_flag_shiftedOutLeft (b : Byte) : (flagByte (shiftedOutLeft b)).toNat = b.toNat / 128 := by
  have := b.isLt
  rw [toNat_flagByte, shiftedOutLeft_eq]
  simp only [decide_eq_true_eq]
  split <;> omega

/-- Settles O44: the bit moved out is written before the shifted value. -/
theorem shiftsMoveOneBitToTheFlag : Obligations.ShiftsMoveOneBitToTheFlag := fun x y s =>
  ⟨⟨decode_encode (.shiftRight x y),
      exists_of_exec_flagThenResult (P := fun v => v.toNat = (s.getV x).toNat / 2)
        (Q := fun v => v.toNat = (s.getV x).toNat % 2) rfl (toNat_shiftRightByte _) (toNat_flag_shiftedOutRight _)⟩,
    ⟨decode_encode (.shiftLeft x y),
      exists_of_exec_flagThenResult (P := fun v => v.toNat = (s.getV x).toNat * 2 % 256)
        (Q := fun v => v.toNat = (s.getV x).toNat / 128) rfl (toNat_shiftLeftByte _) (toNat_flag_shiftedOutLeft _)⟩⟩

/-! ### The address register (R192, R193) -/

theorem exec_addToIndex (x : Nibble) (s : State) :
    exec (.addToIndex x) s = .next (s.setI (s.i + zextByte (s.getV x))) := rfl

theorem exec_loadFontAddress (x : Nibble) (s : State) :
    exec (.loadFontAddress x) s = .next (s.setI (BitVec.ofNat 16 ((s.getV x).toNat * 5))) := rfl

theorem toNat_glyphAddress (b : Byte) : (BitVec.ofNat 16 (b.toNat * 5)).toNat = b.toNat * 5 := by
  have := b.isLt
  rw [BitVec.toNat_ofNat]
  omega

/-- Settles O47: the sum wraps, the product of a byte and 5 does not. -/
theorem addToIndexAndFontAddressSetI : Obligations.AddToIndexAndFontAddressSetI := by
  refine fun x s => ⟨⟨decode_encode (.addToIndex x), _, exec_addToIndex x s, ?_, frame_setI s _⟩,
    decode_encode (.loadFontAddress x), _, exec_loadFontAddress x s, toNat_glyphAddress _, frame_setI s _⟩
  rw [State.setI_i, BitVec.toNat_add, toNat_zextByte]

end Sys2Proof.Machine
end

section
/-! PROOFS. Clear and Draw (spec/44_display.md R211 to R220): the cells a sprite covers, the flag, and a second Draw
of the same sprite. -/

namespace Sys2Proof.Machine

/-! ### Clear (R211) -/

theorem exec_clear (s : State) : exec .clear s = .next (s.setFb (Vector.replicate 32 0)) := rfl

/-- Clearing a clear framebuffer changes nothing. -/
theorem setFb_clear_eq_self {s : State} (h : ∀ row col, cell s.fb row col = false) :
    s.setFb (Vector.replicate 32 0) = s := by
  have hfb : Vector.replicate 32 0 = s.fb := framebuffer_ext fun row col => (cell_clear row col).trans (h row col).symm
  rw [hfb]
  rfl

theorem fbDirty_of_issued_clear {s : State} (h : s.issued = some .clear) : s.fbDirty = true := by
  rw [State.fbDirty, h]

theorem fbDirty_of_issued_draw {s : State} {x y n : Nibble} (h : s.issued = some (.draw x y n))
    (hin : n.toNat = 0 ∨ s.i.toNat + (n.toNat - 1) ≤ 4095) : s.fbDirty = true := by
  simp only [State.fbDirty, h, (s.outOfBounds_eq_false_iff n.toNat).mpr hin, Bool.not_false]

/-- Settles O54: the cleared framebuffer, which is the old one when that was clear. -/
theorem clearEmptiesTheFramebuffer : Obligations.ClearEmptiesTheFramebuffer :=
  ⟨decode_encode .clear, fun s => ⟨⟨_, exec_clear s, cell_clear, frame_setFb s _, setFb_clear_eq_self⟩,
    fbDirty_of_issued_clear⟩⟩

/-! ### The cells and the flag of a Draw (R214 to R217) -/

/-- Whether the sprite of a Draw covers the cell. -/
def State.drawCovers (s : State) (x y n : Nibble) (row : Fin 32) (col : Fin 64) : Prop :=
  s.spriteCovers (s.getV x) (s.getV y) n.toNat row col

theorem State.spriteRows_length_le (s : State) (n : Nibble) : (s.spriteRows n).length ≤ 32 := by
  have := n.isLt
  rw [State.length_spriteRows]
  omega

@[simp] theorem State.drawn_fb (s : State) (x y n : Nibble) : (s.drawn x y n).fb = (s.blit x y n).1 := rfl

theorem State.getV_drawn_flag (s : State) (x y n : Nibble) : (s.drawn x y n).getV 15 = flagByte (s.blit x y n).2 :=
  State.getV_setV_self _ _ _

theorem cell_drawn_of_covers {s : State} {x y n : Nibble} {row : Fin 32} {col : Fin 64} (h : s.drawCovers x y n row col) :
    cell (s.drawn x y n).fb row col = !cell s.fb row col := by
  classical
  have hmask := (spriteMask_spriteRows_iff s _ _ n row col).mpr h
  rw [State.drawn_fb, State.blit, cell_drawSprite _ _ _ _ (s.spriteRows_length_le n), decide_eq_true hmask, Bool.xor_true]

theorem cell_drawn_of_not_covers {s : State} {x y n : Nibble} {row : Fin 32} {col : Fin 64}
    (h : ¬s.drawCovers x y n row col) : cell (s.drawn x y n).fb row col = cell s.fb row col := by
  classical
  have hmask := mt (spriteMask_spriteRows_iff s _ _ n row col).mp h
  rw [State.drawn_fb, State.blit, cell_drawSprite _ _ _ _ (s.spriteRows_length_le n), decide_eq_false hmask, Bool.xor_false]

/-- A Draw collides exactly when it covers a lit cell. -/
theorem blit_collides_iff (s : State) (x y n : Nibble) :
    (s.blit x y n).2 = true ↔ ∃ row col, s.drawCovers x y n row col ∧ cell s.fb row col = true := by
  rw [State.blit, collided_drawSprite _ _ _ _ (s.spriteRows_length_le n)]
  simp only [spriteMask_spriteRows_iff, State.drawCovers]

theorem flagByte_eq_one_iff (c : Bool) : flagByte c = 1 ↔ c = true := by
  cases c <;> decide

/-- `VF` after a Draw. -/
theorem flag_drawn_eq_one_iff (s : State) (x y n : Nibble) :
    (s.drawn x y n).getV 15 = 1 ↔ ∃ row col, s.drawCovers x y n row col ∧ cell s.fb row col = true := by
  rw [State.getV_drawn_flag, flagByte_eq_one_iff, blit_collides_iff]

theorem flag_drawn_eq_zero {s : State} {x y n : Nibble}
    (h : ¬∃ row col, s.drawCovers x y n row col ∧ cell s.fb row col = true) : (s.drawn x y n).getV 15 = 0 := by
  rw [State.getV_drawn_flag, Bool.eq_false_of_not_eq_true (mt (blit_collides_iff s x y n).mp h)]
  rfl

/-- Reducing the coordinates first covers the same cells: each sum wraps at a multiple of 64, or of 32 (R215). -/
theorem spriteCovers_reduced (s : State) (vx vy : Byte) (n : Nat) (row : Fin 32) (col : Fin 64) :
    s.spriteCovers vx vy n row col ↔
      s.spriteCovers (BitVec.ofNat 8 (vx.toNat % 64)) (BitVec.ofNat 8 (vy.toNat % 32)) n row col := by
  have hrow : ∀ r, ((BitVec.ofNat 8 (vy.toNat % 32)).toNat + r) % 32 = (vy.toNat + r) % 32 := fun r => by
    rw [BitVec.toNat_ofNat]
    omega
  have hcol : ∀ c, ((BitVec.ofNat 8 (vx.toNat % 64)).toNat + c) % 64 = (vx.toNat + c) % 64 := fun c => by
    rw [BitVec.toNat_ofNat]
    omega
  simp only [State.spriteCovers, hrow, hcol]

/-- Settles O55: the cells and the flag of the blit, in terms of the covered cells. -/
theorem drawFlipsTheCoveredCells : Obligations.DrawFlipsTheCoveredCells := fun x y n s hin =>
  ⟨decode_encode (.draw x y n), _, exec_draw_inRange hin, fun _ _ => cell_drawn_of_covers,
    fun _ _ => cell_drawn_of_not_covers, (flag_drawn_eq_one_iff s x y n).mpr, flag_drawn_eq_zero, frame_setFb_setFlag s _ _, spriteCovers_reduced s _ _ _,
    fun hi => fbDirty_of_issued_draw hi hin⟩

/-! ### Drawing twice (R218, R219) -/

/-- Writing back what a register holds changes nothing. -/
theorem State.setV_getV_self (s : State) (x : Nibble) : s.setV x (s.getV x) = s := by
  rw [State.setV, State.getV, Vector.set_getElem_self]

/-- The state before a second Draw of the same sprite: the first one's, with `VF` given the value `b`. -/
def State.redrawn (s : State) (x y n : Nibble) (b : Byte) : State := (s.drawn x y n).setV 15 b

/-- With its two coordinate registers as they were, the second Draw covers the cells that the first did. -/
theorem drawCovers_redrawn {s : State} {x y n : Nibble} {b : Byte} (hx : (s.redrawn x y n b).getV x = s.getV x)
    (hy : (s.redrawn x y n b).getV y = s.getV y) (row : Fin 32) (col : Fin 64) :
    (s.redrawn x y n b).drawCovers x y n row col ↔ s.drawCovers x y n row col := by
  rw [State.drawCovers, hx, hy]
  rfl

/-- The second Draw flips the same cells back. -/
theorem fb_drawn_redrawn {s : State} {x y n : Nibble} {b : Byte} (hx : (s.redrawn x y n b).getV x = s.getV x)
    (hy : (s.redrawn x y n b).getV y = s.getV y) : ((s.redrawn x y n b).drawn x y n).fb = s.fb := by
  refine framebuffer_ext fun row col => ?_
  have hfirst : cell (s.redrawn x y n b).fb row col = cell (s.drawn x y n).fb row col := rfl
  by_cases hc : s.drawCovers x y n row col
  · rw [cell_drawn_of_covers ((drawCovers_redrawn hx hy row col).mpr hc), hfirst, cell_drawn_of_covers hc, Bool.not_not]
  · rw [cell_drawn_of_not_covers (mt (drawCovers_redrawn hx hy row col).mp hc), hfirst, cell_drawn_of_not_covers hc]

/-- The second Draw collides where the first landed on an unlit cell. -/
theorem flag_drawn_redrawn {s : State} {x y n : Nibble} {b : Byte} (hx : (s.redrawn x y n b).getV x = s.getV x)
    (hy : (s.redrawn x y n b).getV y = s.getV y) :
    ((s.redrawn x y n b).drawn x y n).getV 15 = 1 ↔
      ∃ row col, s.drawCovers x y n row col ∧ cell s.fb row col = false := by
  rw [flag_drawn_eq_one_iff]
  refine exists_congr fun row => exists_congr fun col => ?_
  rw [drawCovers_redrawn hx hy]
  refine and_congr_right fun hc => ?_
  have hfirst : cell (s.redrawn x y n b).fb row col = !cell s.fb row col := cell_drawn_of_covers hc
  rw [hfirst, Bool.not_eq_true']

/-- Settles O56: the second Draw covers the same cells. -/
theorem drawTwiceRestoresTheFramebuffer : Obligations.DrawTwiceRestoresTheFramebuffer := fun x y n s hin =>
  ⟨_, exec_draw_inRange hin, State.setV_getV_self _ 15, fun b hx hy =>
    ⟨_, exec_draw_inRange (s := s.redrawn x y n b) hin, fb_drawn_redrawn hx hy, flag_drawn_redrawn hx hy⟩⟩

end Sys2Proof.Machine
end

section
/-! PROOFS. Load-key, the key poll and the timer instructions (spec/45_input_timers.md R234 to R239). -/

namespace Sys2Proof.Machine

/-! ### The lowest key (R239) -/

/-- A snapshot with a pressed key is not empty. -/
theorem keys_ne_zero {keys : BitVec 16} {k : Fin 16} (hk : keys[k.val] = true) : keys ≠ 0 := by
  intro h
  rw [(keys_eq_zero_iff keys).mp h k] at hk
  cases hk

theorem toNat_minKey_of_lowest {keys : BitVec 16} {k : Fin 16} (hk : keys[k.val] = true)
    (hmin : ∀ j : Fin 16, j < k → keys[j.val] = false) : (minKey keys).toNat = k.val :=
  toNat_minKey k.isLt hk fun j hj => hmin ⟨j, Nat.lt_trans hj k.isLt⟩ hj

/-! ### Load-key (R235) -/

theorem exec_loadKey_of_no_key {s : State} (x : Nibble) (h : s.keys = 0) :
    exec (.loadKey x) s = .next (s.setStatus (.awaitKey x)) := by
  rw [exec_loadKey, if_pos h]

theorem exec_loadKey_of_key {s : State} (x : Nibble) (h : s.keys ≠ 0) :
    exec (.loadKey x) s = .next (s.setV x (minKey s.keys)) := by
  rw [exec_loadKey, if_neg h]

/-- Settles O58: an empty snapshot waits, any other has a lowest key. -/
theorem loadKeyWaitsOrCompletes : Obligations.LoadKeyWaitsOrCompletes := by
  refine fun x s => ⟨decode_encode (.loadKey x), fun hnone => ?_, fun k hk hmin => ?_⟩
  · exact ⟨_, exec_loadKey_of_no_key x ((keys_eq_zero_iff _).mpr hnone), rfl, frame_setStatus s _⟩
  · refine ⟨_, exec_loadKey_of_key x (keys_ne_zero hk), ?_, frame_setV s x _⟩
    rw [s.getV_setV_self]
    exact toNat_minKey_of_lowest hk hmin

/-! ### The key poll (R236) -/

theorem step_of_awaitKey {s : State} {x : Nibble} (hs : s.status = .awaitKey x) (hrst : s.sampled.rst = false)
    (hrun : s.sampled.run = true) : step s = .next (s.stepStart.poll x) := by
  simp [step_eq, hrst, hrun, hs]

theorem State.poll_of_no_key {s : State} (x : Nibble) (h : s.keys = 0) : s.poll x = s := if_pos h

theorem State.poll_of_key {s : State} (x : Nibble) (h : s.keys ≠ 0) :
    s.poll x = (s.setV x (minKey s.keys)).setStatus .running := if_neg h

/-- The awaited register and `status`. -/
theorem frame_setV_setStatus (s : State) (x : Nibble) (b : Byte) (st : Status) :
    Frame { regs := [x], status := true } s ((s.setV x b).setStatus st) :=
  (frame_setV s x b).allow_status.trans ((frame_setStatus _ st).of_status rfl)

/-- Settles O59: the snapshot the step latches is the one of its boundary. -/
theorem keyPollEndsTheWait : Obligations.KeyPollEndsTheWait := by
  refine fun x s hs hrst hrun => ⟨fun hnone => ?_, fun k hk hmin => ?_⟩
  · have hpoll : s.stepStart.poll x = s.stepStart := State.poll_of_no_key x ((keys_eq_zero_iff _).mpr hnone)
    exact ⟨_, step_of_awaitKey hs hrst hrun, by rw [hpoll]; exact hs, State.poll_pc _ x, by rw [hpoll]; exact Frame.refl _ _⟩
  · have hpoll := State.poll_of_key (s := s.stepStart) x (keys_ne_zero hk)
    refine ⟨_, (step_of_awaitKey hs hrst hrun).trans (congrArg _ hpoll), rfl, rfl, ?_, frame_setV_setStatus _ _ _ _⟩
    rw [State.getV_setStatus, State.getV_setV_self]
    exact toNat_minKey_of_lowest hk hmin

/-! ### The timers (R234, R237, R238) -/

theorem exec_loadDelay (x : Nibble) (s : State) : exec (.loadDelay x) s = .next (s.setV x s.dt) := rfl

theorem exec_setDelay (x : Nibble) (s : State) : exec (.setDelay x) s = .next (s.setDt (s.getV x)) := rfl

theorem exec_setSound (x : Nibble) (s : State) : exec (.setSound x) s = .next (s.setSt (s.getV x)) := rfl

/-- The tone is on while the sound timer is not 0 (R34). -/
theorem State.tone_iff_ne_zero (s : State) : s.tone = true ↔ s.st ≠ 0 := by
  rw [s.tone_iff, gt_iff_lt, Nat.pos_iff_ne_zero, ne_eq, ne_eq, ← BitVec.toNat_inj]
  rfl

/-- Settles O60: one byte moved each, and the tone by the sound timer. -/
theorem timerInstructionsMoveBytes : Obligations.TimerInstructionsMoveBytes := fun x s =>
  ⟨⟨decode_encode (.loadDelay x), _, exec_loadDelay x s, s.getV_setV_self x _, frame_setV s x _⟩,
    ⟨decode_encode (.setDelay x), _, exec_setDelay x s, rfl, frame_setDt s _⟩,
    decode_encode (.setSound x), _, exec_setSound x s, rfl, State.tone_iff_ne_zero _, frame_setSt s _⟩

end Sys2Proof.Machine
end
